-- ==== Sys2Proof/Config.lean ====
section
/-! DEFINITION. The parameters of one HRB-CTL instance: fixed at elaboration, changed by nothing. -/

namespace Sys2Proof

/-- The parameter record of `spec/00_scope.md` section 4 (R5 to R9). The functions that interpret it (legality, derived
widths, moduli) are in `Machine/Pointers.lean` and `Machine/Operands.lean`. -/
structure Config where
  /-- `CAPACITY`, the number of slots (R5): static, supplied once, never changed. -/
  capacity    : Nat
  /-- `MAX_CAPACITY`, the platform's construction limit (R5, R73): an OPEN parameter. -/
  maxCapacity : Nat
  /-- `DATA_BITS`, bits of one slot (R6). -/
  dataBits    : Nat
  /-- `EPOCH_BITS`, bits of each epoch counter (R7). -/
  epochBits   : Nat
  /-- `COUNT_BITS`, bits of a length or a count (R9): an OPEN parameter. `none` is the spec's own model with natural
  numbers of any size; `some n` is a build with a finite interface. -/
  countBits   : Option Nat
  deriving DecidableEq, Repr

/-- The instance that `Machine.State.reset` is an instance of. `EPOCH_BITS = 8` is the spec's default (R7) and
`DATA_BITS = 8` makes READ and WRITE exist (R6). DESIGN CHOICE (log entry 2): the spec supplies no value for `CAPACITY`,
`MAX_CAPACITY` and `COUNT_BITS`. No statement rests on these values. -/
def Config.atReset : Config :=
  { capacity := 4, maxCapacity := 65536, dataBits := 8, epochBits := 8, countBits := none }

end Sys2Proof
end

