-- ==== Sys2Proof/Word.lean ====
section
/-! DEFINITION. The two word types of HRB-CTL: the content of one storage slot and a byte of the byte stream. -/

namespace Sys2Proof

/-- One byte of the owner's byte sequences (`spec/44_bulk.md` R102, R107). -/
abbrev Byte := BitVec 8

/-- The content of one storage slot: `DATA_BITS` plain bits (`spec/00_scope.md` R6). The width is a parameter of the
instance (`Config.dataBits`), so a slot value carries its own; `Machine.slotFits` says that it is the instance's. -/
structure Slot where
  width : Nat
  bits  : BitVec width
  deriving DecidableEq, Repr

/-- The all-zero value of a given width: what idle data wires carry in an encoded command that names no value. -/
def Slot.zero (width : Nat) : Slot := ⟨width, 0#width⟩

end Sys2Proof
end

