-- ==== Sys2Proof/Machine/Operands.lean ====
section
/-! DEFINITION. Operands: which values each operation's operand may take on an instance, and the passage between the
bytes of the byte stream and the slots of an instance whose `DATA_BITS` is 8. -/

namespace Sys2Proof.Machine

/-- The value has the instance's slot width: `value` of PUSH is `DATA_BITS` bits (`spec/30_encoding.md` R60). -/
def slotFits (c : Config) (v : Slot) : Bool := v.width == c.dataBits

/-- READ and WRITE exist only on an instance with `DATA_BITS = 8` (`spec/00_scope.md` R6, `spec/30_encoding.md` R65): the
well-formedness part R71 calls `dataBitsIs8`. -/
def dataBitsIs8 (c : Config) : Bool := c.dataBits == 8

/-- A length is a natural number of any size in the model, and below `2^COUNT_BITS` on a build with a finite interface
(`spec/00_scope.md` R9, `spec/30_encoding.md` R60): the well-formedness part R71 calls `lengthFits`. -/
def lengthFits (c : Config) (n : Nat) : Bool :=
  match c.countBits with
  | none => true
  | some k => n < 2 ^ k

/-- The slot that holds a byte: bit `k` of the byte is bit `k` of the slot (`spec/20_memory.md` R42). -/
def byteSlot (x : Byte) : Slot := ⟨8, x⟩

/-- The byte that READ delivers for a slot. On an instance where READ exists a slot is 8 bits wide and this is the slot's
bits unchanged (`spec/20_memory.md` R42). -/
def slotByte (v : Slot) : Byte := v.bits.setWidth 8

end Sys2Proof.Machine
end

