-- ==== Sys2Proof/Syntax.lean ====
section
/-! DEFINITION. The operations of HRB-CTL (one constructor per row of spec/opcode_table.json), the input ports that carry
them, what the owner may do, and the reasons a port sample spells no operation. -/

namespace Sys2Proof

/-- The operations, in the order of `spec/30_encoding.md` R58, with the operands of R71. DESIGN CHOICE (log entry 17):
CONSTRUCT is a constructor here, run by `exec` on a state, as `spec/opcode_table.json`, R58 and `spec/00_scope.md` R17 list it
among the operations, where R71 keeps it out of its `Op` as the function that builds the initial state. -/
inductive Instr where
  /-- CONSTRUCT (R72): the reset event. Its `CAPACITY` is the static parameter of the instance and stands on no port. -/
  | construct
  /-- PUSH (R78): the value to store. -/
  | push (value : Slot)
  /-- NEXT (R84). -/
  | next
  /-- CLEAR (R94). -/
  | clear
  /-- DRAIN (R97). -/
  | drain
  /-- READ (R102): the length `N` of the owner's destination. -/
  | read (n : Nat)
  /-- WRITE (R107): the source bytes, `src[0]` first. -/
  | write (src : List Byte)
  deriving DecidableEq, Repr

/-- One sample of the input ports (`spec/30_encoding.md` R57). -/
structure Ports where
  rst      : Bool
  cmdValid : Bool
  cmdOp    : BitVec 3
  cmdData  : Slot
  cmdLen   : Nat
  src      : List Byte
  deriving DecidableEq, Repr

/-- What the owner, the block's only environment, may do (`spec/70_reset_and_hazards.md` R129): drive the input ports, or
end the instance's life, an event that has no port and no encoding (`spec/40_construct.md` R76). -/
inductive OwnerEvent where
  | drive (p : Ports)
  | destroy
  deriving DecidableEq, Repr

/-- Why a port sample spells no operation. -/
inductive Reject where
  /-- Neither `rst` nor `cmd_valid` is 1: no command is presented. The block holds its state (R124). -/
  | noCommand
  /-- A reserved operation code (R64). -/
  | reservedCode (op : BitVec 3)
  /-- The code of READ or WRITE on an instance whose `DATA_BITS` is not 8: reserved there (R65). -/
  | byteOperationAbsent (op : BitVec 3)
  /-- PUSH with a value that is not `DATA_BITS` wide: the port cannot carry it (R57). -/
  | dataWidth (width : Nat)
  /-- A length that does not fit in `COUNT_BITS` bits (R60). -/
  | lengthDoesNotFit (length : Nat)
  /-- WRITE whose `cmd_len` is not the length of `src` (R57, R60). -/
  | sourceLength (cmdLen actual : Nat)
  deriving DecidableEq, Repr

end Sys2Proof
end

