-- ==== Sys2Proof/WellFormed.lean ====
section
/-! DEFINITION. Which operations an instance can be asked for: the named checks of spec/30_encoding.md R71, and the width
of PUSH's value. -/

namespace Sys2Proof

/-- The operation can be presented on the command interface of an instance with these parameters. -/
def Instr.wellFormed (c : Config) : Instr → Bool
  | .construct => true
  | .push v => Machine.slotFits c v
  | .next => true
  | .clear => true
  | .drain => true
  | .read n => Machine.dataBitsIs8 c && Machine.lengthFits c n
  | .write src => Machine.dataBitsIs8 c && Machine.lengthFits c src.length

end Sys2Proof
end

