-- ==== Sys2Proof/Decode.lean ====
section
/-! DEFINITION. From a sample of the input ports to an operation, and back (spec/30_encoding.md sections 1 to 5). The
ports and codes are the spec's own transport (R57, R58, decision D9). -/

namespace Sys2Proof

/-- Reading a length operand off `cmd_len` for the operation it belongs to: reserved unless `DATA_BITS = 8` (R65), and
turned away when it does not fit `COUNT_BITS` (R60). -/
def decodeLength (c : Config) (p : Ports) (i : Instr) : Except Reject Instr :=
  if Machine.dataBitsIs8 c = false then .error (.byteOperationAbsent p.cmdOp)
  else if Machine.lengthFits c p.cmdLen = false then .error (.lengthDoesNotFit p.cmdLen)
  else .ok i

/-- The operation a presented command spells (R63). Ports the operation does not name are ignored (R59). The codes left to
the last line are `000` and `111`, reserved (R64). -/
def decodeCommand (c : Config) (p : Ports) : Except Reject Instr :=
  match p.cmdOp with
  | 0b001#3 => if Machine.slotFits c p.cmdData then .ok (.push p.cmdData) else .error (.dataWidth p.cmdData.width)
  | 0b010#3 => .ok .next
  | 0b011#3 => .ok .clear
  | 0b100#3 => .ok .drain
  | 0b101#3 => decodeLength c p (.read p.cmdLen)
  | 0b110#3 =>
    if p.cmdLen = p.src.length then decodeLength c p (.write p.src)
    else .error (.sourceLength p.cmdLen p.src.length)
  | op => .error (.reservedCode op)

/-- The operation a sample of the input ports spells. `rst` is CONSTRUCT (R69) and wins over a command presented with it,
which is then not accepted (`spec/60_exceptions.md` R117). -/
def decode (c : Config) (p : Ports) : Except Reject Instr :=
  if p.rst then .ok .construct
  else if p.cmdValid then decodeCommand c p
  else .error .noCommand

/-- Input ports with a command code and every operand port at zero. -/
def commandPorts (c : Config) (op : BitVec 3) : Ports :=
  { rst := false, cmdValid := true, cmdOp := op, cmdData := Slot.zero c.dataBits, cmdLen := 0, src := [] }

/-- Input ports with `rst` alone at 1 (format `RST`, R59). -/
def resetPorts (c : Config) : Ports :=
  { rst := true, cmdValid := false, cmdOp := 0b000#3, cmdData := Slot.zero c.dataBits, cmdLen := 0, src := [] }

/-- The port sample that presents an operation (R57, R58, R69), with the ports it does not name at zero. -/
def encode (c : Config) : Instr → Ports
  | .construct => resetPorts c
  | .push v => { commandPorts c 0b001#3 with cmdData := v }
  | .next => commandPorts c 0b010#3
  | .clear => commandPorts c 0b011#3
  | .drain => commandPorts c 0b100#3
  | .read n => { commandPorts c 0b101#3 with cmdLen := n }
  | .write src => { commandPorts c 0b110#3 with cmdLen := src.length, src := src }

/-- The port sample for a word of spec/opcode_table.json, operands zero. A row of the one-bit format `RST` is bit 0 on the
`rst` pin; every other row is `cmd_op` in bits 2..0. The two formats are on different pins and both have a row `0x1`
(CONSTRUCT and PUSH): the number of bits tells them apart, and a word given in whole bytes is read as `cmd_op`, the longer
match. DESIGN CHOICE (log entry 9). -/
def tableWordPorts (c : Config) (nbits w : Nat) : Ports :=
  if nbits < 3 then { resetPorts c with rst := w.testBit 0 }
  else commandPorts c (BitVec.ofNat 3 w)

/-- What the decoder reads from a word of the opcode table on an instance with the parameters of `Config.atReset`. -/
def decodeTableWord (nbits w : Nat) : Option Instr :=
  match decode Config.atReset (tableWordPorts Config.atReset nbits w) with
  | .ok i => some i
  | .error _ => none

end Sys2Proof
end

