-- ==== Sys2Proof/Machine/State.lean ====
section
/-! DEFINITION. The state of one HRB-CTL instance and its owner (spec/10_state.md), as plain data, and the state right
after reset. -/

namespace Sys2Proof.Machine

/-- `storage` (`spec/10_state.md` R33): pairs of a slot index and the slot's content, by strictly rising index. A slot
that is not listed holds no value: nothing has pushed to it since the last CONSTRUCT. Only slots with a value are listed,
so equal storages are equal lists (`Memory.wf`). -/
abbrev Memory := List (Nat × Slot)

/-- What a `Live` instance has: the four cursor registers and the storage (`spec/10_state.md` R20). The registers hold
unsigned integers (`spec/00_scope.md` R10); their ranges are R38, the invariant `registersLegal`. -/
structure Buffer where
  /-- `write_index`, where the next PUSH writes (R21). -/
  writeIndex : Nat
  /-- `read_index`, where the next NEXT reads unless it jumps (R22). -/
  readIndex  : Nat
  /-- `write_epoch`, wraps of `write_index` modulo `2^EPOCH_BITS` (R23). -/
  writeEpoch : Nat
  /-- `read_epoch`, wraps of `read_index` modulo `2^EPOCH_BITS` (R24). -/
  readEpoch  : Nat
  storage    : Memory
  deriving DecidableEq, Repr

/-- What `ConstructionFailure` records (`spec/60_exceptions.md` R112, R114): its cause code and the offending capacity. -/
structure ConstructionFailure where
  code     : Nat
  capacity : Nat
  deriving DecidableEq, Repr

/-- The lifecycle marker `status` with what exists in each case (`spec/10_state.md` R26): only a `Live` instance has
cursor registers and storage. -/
inductive Lifecycle where
  /-- Before CONSTRUCT and after DESTROY. -/
  | absent
  /-- After a successful CONSTRUCT. -/
  | live (b : Buffer)
  /-- After a CONSTRUCT that raised `ConstructionFailure`. -/
  | failed (f : ConstructionFailure)
  deriving DecidableEq, Repr

/-- The value of the marker `status` alone (R26). -/
inductive Status where
  | absent
  | live
  | failed
  deriving DecidableEq, Repr

/-- The result of a command as the owner sees it (`spec/30_encoding.md` R61, R71). -/
inductive Result where
  /-- PUSH and CLEAR: completion is the only response. -/
  | unit
  /-- NEXT: `Some(v)` or `None`; there is no data in the `None` case (R62). -/
  | opt (v : Option Slot)
  /-- DRAIN: the drained elements, oldest first. -/
  | seq (vs : List Slot)
  /-- READ: the count, and the bytes for the first `count` positions of the destination. -/
  | bytes (count : Nat) (vs : List Byte)
  /-- WRITE: the count. -/
  | count (count : Nat)
  deriving DecidableEq, Repr

/-- The faults of `spec/60_exceptions.md` R125: the block's one, and the safety net it allows a model. -/
inductive Fault where
  /-- `ConstructionFailure` (`spec/60_exceptions.md` R112). Raised by `execConstruct` alone: CONSTRUCT returns the fault
  instead of a state (R118). The step that runs it then makes `status` `Failed` (R114; `settle`), so the machine itself does
  not stop with it. Safe: no command runs on a `Failed` instance (R119). -/
  | constructionFailure (f : ConstructionFailure)
  /-- The safety net (R125). Raised by `memRead` (NEXT, DRAIN, READ) on a slot that holds no value. Safe: the machine stops
  where the spec gives no value (`spec/10_state.md` R33), and R34 shows that no run gets there. -/
  | valuelessSlot (index : Nat)
  deriving DecidableEq, Repr

/-- Why a command has no meaning (`spec/60_exceptions.md` R125). -/
inductive Refusal where
  /-- An instruction whose meaning is not written yet, named as the opcode table names it; raised by `exec` alone. Safe. -/
  | notModelled (mnemonic : String)
  /-- Any command to an `Absent` or `Failed` instance (`spec/40_construct.md` R77). Raised by `onLive`. Safe. -/
  | notLive (status : Status)
  /-- A port sample that spells no operation: a reserved code (`spec/30_encoding.md` R64, R65) or an operand its port
  cannot carry (R60). Raised by `issue`. Safe. -/
  | undecodable (r : Reject)
  /-- PUSH of a value that is not `DATA_BITS` wide, which no port can present (R57). Raised by `execPush`. Safe. -/
  | dataWidth (width : Nat)
  /-- READ or WRITE on an instance whose `DATA_BITS` is not 8 (R65). Raised by `execRead` and `execWrite`. Safe. -/
  | byteOperationAbsent
  /-- READ or WRITE with a length that does not fit `COUNT_BITS` (R60). Raised by `execRead` and `execWrite`. Safe. -/
  | lengthDoesNotFit (length : Nat)
  /-- CONSTRUCT of an instance whose `DATA_BITS`, `EPOCH_BITS`, `COUNT_BITS` or `MAX_CAPACITY` is outside the range
  `spec/00_scope.md` section 4 gives it: a request outside the parameters (R15). Raised by `execConstruct`. Safe. -/
  | parametersOutOfRange
  deriving DecidableEq, Repr

/-- The state of one instance and its owner. -/
structure State where
  /-- The instance's parameters: configuration, not state (R20). They stand here because `exec` takes no other argument,
  and no step changes them. -/
  config : Config
  /-- `status`, and on a `Live` instance the cursor registers and the storage. -/
  block  : Lifecycle
  /-- What the owner will do next, first event first (R129). The MODEL's own field: the block has no queue of commands
  (R56) and no program counter (R25); commands come from the owner, one at a time. -/
  owner  : List OwnerEvent
  /-- What the response ports present: the result of the last command completed, or nothing (R57, R61). -/
  result : Option Result
  deriving DecidableEq, Repr

/-- The cursor registers and the storage after a successful CONSTRUCT (`spec/10_state.md` R37): registers zero, no slot
holds a value. -/
def Buffer.fresh : Buffer :=
  { writeIndex := 0, readIndex := 0, writeEpoch := 0, readEpoch := 0, storage := [] }

/-- The machine right after reset (`spec/70_reset_and_hazards.md` R126): the block's reset is CONSTRUCT, so the instance is
`Live` and fresh. Nothing has been presented on the response ports, and the owner has nothing planned: commands are given
from outside (log entry 4). -/
def State.reset : State :=
  { config := Config.atReset, block := .live Buffer.fresh, owner := [], result := none }

end Sys2Proof.Machine
end

