-- ==== Sys2Proof/Machine/Pointers.lean ====
section
/-! DEFINITION. Pointer arithmetic: the moduli, the index advance, the epoch increment and comparison, the modular count
of pending elements, and the legality of parameters and registers. -/

namespace Sys2Proof.Machine

/-- `2^EPOCH_BITS`, the modulus of epoch arithmetic (`spec/00_scope.md` R7). -/
def epochs (c : Config) : Nat := 2 ^ c.epochBits

/-- `M = 2^EPOCH_BITS * CAPACITY`, the number of pointer positions (`spec/70_reset_and_hazards.md` R131). -/
def positions (c : Config) : Nat := epochs c * c.capacity

/-- `INDEX_BITS = max(1, ceil(log2(CAPACITY)))` (`spec/00_scope.md` R8). -/
def indexBits (c : Config) : Nat := if c.capacity ≤ 2 then 1 else Nat.log2 (c.capacity - 1) + 1

/-- `legal(capacity)` (`spec/40_construct.md` R73). -/
def legalCapacity (c : Config) : Bool := 1 ≤ c.capacity && c.capacity ≤ c.maxCapacity

/-- The parameters other than `CAPACITY` are in the ranges of `spec/00_scope.md` section 4 (R5, R6, R7, R9). -/
def legalParameters (c : Config) : Bool :=
  1 ≤ c.maxCapacity && 1 ≤ c.dataBits && 2 ≤ c.epochBits &&
    match c.countBits with
    | none => true
    | some k => 1 ≤ k

/-- `next_index(i)` (`spec/41_push.md` R80). -/
def nextIndex (c : Config) (i : Nat) : Nat := (i + 1) % c.capacity

/-- `wraps(i)`: the advance from `i` gives 0 (`spec/41_push.md` R80). -/
def wraps (c : Config) (i : Nat) : Bool := nextIndex c i == 0

/-- `inc_epoch(e)` (`spec/41_push.md` R81). -/
def incEpoch (c : Config) (e : Nat) : Nat := (e + 1) % epochs c

/-- `(w - r) mod 2^EPOCH_BITS`, how many epochs the writer is ahead (`spec/10_state.md` R27). -/
def epochGap (c : Config) (r w : Nat) : Nat := (w + (epochs c - r % epochs c)) % epochs c

/-- `behind(r, w)`, the wraparound-aware comparison of two epochs (`spec/10_state.md` R27, the spec's decision D5). -/
def behind (c : Config) (r w : Nat) : Bool :=
  1 ≤ epochGap c r w && epochGap c r w ≤ 2 ^ (c.epochBits - 1) - 1

/-- `W`, the absolute position of the write pointer (`spec/70_reset_and_hazards.md` R131). -/
def writePosition (c : Config) (b : Buffer) : Nat := b.writeEpoch * c.capacity + b.writeIndex

/-- `R`, the absolute position of the read pointer (`spec/70_reset_and_hazards.md` R131). -/
def readPosition (c : Config) (b : Buffer) : Nat := b.readEpoch * c.capacity + b.readIndex

/-- `pending = (W - R) mod M`, pushes not yet matched by the read pointer (`spec/70_reset_and_hazards.md` R131). A tool
for proofs: no operation reads it. -/
def pending (c : Config) (b : Buffer) : Nat :=
  (writePosition c b + (positions c - readPosition c b % positions c)) % positions c

end Sys2Proof.Machine
end

