-- ==== Sys2Proof/Machine/Flags.lean ====
section
/-! DEFINITION. The three status conditions (spec/10_state.md section 4): combinational functions of the cursor registers,
stored nowhere. -/

namespace Sys2Proof.Machine

/-- `EMPTY` (`spec/10_state.md` R28): equal indices and equal epochs; `behind` is not used. -/
def isEmpty (b : Buffer) : Bool := b.readIndex == b.writeIndex && b.readEpoch == b.writeEpoch

/-- `FULL` (`spec/10_state.md` R29): equal indices and the writer exactly one epoch ahead. No operation reads it. -/
def isFull (c : Config) (b : Buffer) : Bool :=
  b.readIndex == b.writeIndex && epochGap c b.readEpoch b.writeEpoch == 1

/-- `OVERRUN` (`spec/10_state.md` R30), the catch-up condition of NEXT. -/
def isOverrun (c : Config) (b : Buffer) : Bool :=
  behind c b.readEpoch b.writeEpoch && b.readIndex < b.writeIndex

end Sys2Proof.Machine
end

