-- ==== Sys2Proof/Machine/Ops.lean ====
section
/-! DEFINITION. The named operations over storage, cursor registers and state that the meanings are made of. -/

namespace Sys2Proof.Machine

/-! Storage. -/

/-- The content of a slot, `none` if it holds no value (`spec/10_state.md` R33). -/
def Memory.read : Memory → Nat → Option Slot
  | [], _ => none
  | (j, w) :: rest, i => if j = i then some w else Memory.read rest i

/-- The storage with slot `i` holding `v` and every other slot as it was. -/
def Memory.write : Memory → Nat → Slot → Memory
  | [], i, v => [(i, v)]
  | (j, w) :: rest, i, v =>
    if i < j then (i, v) :: (j, w) :: rest
    else if i = j then (i, v) :: rest
    else (j, w) :: Memory.write rest i v

/-- The canonical form: slot indices strictly rising. -/
def Memory.wf : Memory → Bool
  | [] => true
  | [_] => true
  | (i, _) :: (j, w) :: rest => decide (i < j) && Memory.wf ((j, w) :: rest)

/-- `MemRead(i, 1)` (`spec/00_scope.md` R12). A slot that holds no value stops the machine, the safety net of
`spec/60_exceptions.md` R125; `spec/10_state.md` R34 shows that it is never read. -/
def memRead (m : Memory) (i : Nat) : Except Fault Slot :=
  match m.read i with
  | some v => .ok v
  | none => .error (.valuelessSlot i)

/-- `MemWrite(i, 1, v)` (`spec/00_scope.md` R12). There is no out-of-range access and no fault for one (`spec/20_memory.md` R41);
that an index which names no slot would change no slot is a DESIGN CHOICE (log entry 3) and keeps the storage to the slots that
exist. -/
def memWrite (c : Config) (m : Memory) (i : Nat) (v : Slot) : Memory := if i < c.capacity then m.write i v else m

/-! Cursor registers. -/

/-- The advance of the write pointer: index by one slot circularly, epoch on a wrap (`spec/41_push.md` R78, R80, R81). -/
def advanceWrite (c : Config) (b : Buffer) : Buffer :=
  { b with
    writeIndex := nextIndex c b.writeIndex
    writeEpoch := if wraps c b.writeIndex then incEpoch c b.writeEpoch else b.writeEpoch }

/-- The advance of the read pointer (`spec/42_next.md` R88). -/
def advanceRead (c : Config) (b : Buffer) : Buffer :=
  { b with
    readIndex := nextIndex c b.readIndex
    readEpoch := if wraps c b.readIndex then incEpoch c b.readEpoch else b.readEpoch }

/-- The catch-up jump, which writes `read_index` only (`spec/42_next.md` R86, R87). -/
def catchUp (c : Config) (b : Buffer) : Buffer :=
  if isOverrun c b then { b with readIndex := b.writeIndex } else b

/-- The four cursor registers to zero, storage as it was (`spec/43_clear_drain.md` R94). -/
def zeroCursors (b : Buffer) : Buffer :=
  { b with writeIndex := 0, readIndex := 0, writeEpoch := 0, readEpoch := 0 }

/-! State. -/

/-- The value of `status` (`spec/10_state.md` R26). -/
def State.status (s : State) : Status :=
  match s.block with
  | .absent => .absent
  | .live _ => .live
  | .failed _ => .failed

def State.withBlock (s : State) (x : Lifecycle) : State := { s with block := x }

def State.withOwner (s : State) (o : List OwnerEvent) : State := { s with owner := o }

/-- The state in which a command has completed: the buffer it left, and its result on the response ports. -/
def State.complete (s : State) (b : Buffer) (r : Result) : State := { s with block := .live b, result := some r }

/-- The state after CONSTRUCT or DESTROY: what is left of the instance, and nothing on the response ports, since neither
returns a result (`spec/40_construct.md` R72, R76). -/
def State.restart (s : State) (x : Lifecycle) : State := { s with block := x, result := none }

/-- How a command's effect on the buffer ends the step. -/
def finish (s : State) (e : Except Fault (Buffer × Result)) : Host.Outcome State Fault Refusal :=
  match e with
  | .ok (b, r) => .next (s.complete b r)
  | .error e => .fault e

/-- A command acts on a `Live` instance alone; on an `Absent` or `Failed` one it is refused (`spec/40_construct.md`
R77). -/
def onLive (s : State) (f : Buffer → Except Fault (Buffer × Result)) : Host.Outcome State Fault Refusal :=
  match s.block with
  | .absent => .refused (.notLive .absent)
  | .failed _ => .refused (.notLive .failed)
  | .live b => finish s (f b)

/-! The one exception. There is no return from it (`spec/60_exceptions.md` R119). -/

/-- Cause code of `ConstructionFailure` (`spec/60_exceptions.md` R112). -/
def constructionFailureCode : Nat := 1

/-- `raise ConstructionFailure(capacity)` (`spec/60_exceptions.md` R112): the code and the offending capacity. -/
def raiseConstructionFailure (s : State) : Host.Outcome State Fault Refusal :=
  .fault (.constructionFailure { code := constructionFailureCode, capacity := s.config.capacity })

/-- Taking `ConstructionFailure` (`spec/60_exceptions.md` R114, R118): `status` becomes `Failed`, no cursor register and no
storage exist, the record is kept, and nothing else happens. -/
def takeConstructionFailure (f : ConstructionFailure) (s : State) : State := s.restart (.failed f)

/-- How an operation's outcome ends the step in which it ran, from the state before it: `ConstructionFailure` is taken
(`spec/60_exceptions.md` R114), and every other outcome stands. That the machine goes on in the `Failed` state is DEDUCED (log
entry 5). -/
def settle (s : State) (o : Host.Outcome State Fault Refusal) : Host.Outcome State Fault Refusal :=
  match o with
  | .next t => .next t
  | .fault (.constructionFailure f) => .next (takeConstructionFailure f s)
  | .fault (.valuelessSlot i) => .fault (.valuelessSlot i)
  | .refused r => .refused r

end Sys2Proof.Machine
end

