-- ==== Sys2Proof/Machine/Next.lean ====
section
/-! DEFINITION. NEXT (spec/42_next.md), and the bounded repetition of it that DRAIN and READ are made of. -/

namespace Sys2Proof.Machine

/-- NEXT on the buffer (R84): empty test, catch-up jump, read, advance, each on what the one before left. -/
def popSlot (c : Config) (b : Buffer) : Except Fault (Buffer × Option Slot) :=
  if isEmpty b then .ok (b, none)
  else
    let b1 := catchUp c b
    match memRead b1.storage b1.readIndex with
    | .ok v => .ok (advanceRead c b1, some v)
    | .error e => .error e

/-- Repeated NEXT: at most `n` times, stopping at the first `None`, collecting the values in read order. The room test
comes before each NEXT (`spec/44_bulk.md` R103). -/
def popUpTo (c : Config) : Nat → Buffer → Except Fault (Buffer × List Slot)
  | 0, b => .ok (b, [])
  | n + 1, b =>
    match popSlot c b with
    | .error e => .error e
    | .ok (b', none) => .ok (b', [])
    | .ok (b', some v) =>
      match popUpTo c n b' with
      | .error e => .error e
      | .ok (b'', vs) => .ok (b'', v :: vs)

/-- NEXT. -/
def execNext (s : State) : Host.Outcome State Fault Refusal :=
  onLive s fun b =>
    match popSlot s.config b with
    | .ok (b', v) => .ok (b', .opt v)
    | .error e => .error e

end Sys2Proof.Machine
end

