-- ==== Sys2Proof/Machine/Push.lean ====
section
/-! DEFINITION. PUSH (spec/41_push.md). -/

namespace Sys2Proof.Machine

/-- PUSH on the buffer (R78, R79): store at `write_index` as it stands, then advance; unconditional, and it never fails
(R82). -/
def pushSlot (c : Config) (v : Slot) (b : Buffer) : Buffer :=
  advanceWrite c { b with storage := memWrite c b.storage b.writeIndex v }

/-- PUSH. A value that is not `DATA_BITS` wide cannot be presented (`spec/30_encoding.md` R57). -/
def execPush (v : Slot) (s : State) : Host.Outcome State Fault Refusal :=
  if slotFits s.config v then onLive s fun b => .ok (pushSlot s.config v b, .unit)
  else .refused (.dataWidth v.width)

end Sys2Proof.Machine
end

