-- ==== Sys2Proof/Machine/Bulk.lean ====
section
/-! DEFINITION. READ and WRITE (spec/44_bulk.md). -/

namespace Sys2Proof.Machine

/-- READ on the buffer (R102 to R104): at most `n` turns of NEXT, the bytes in read order. -/
def readBytes (c : Config) (n : Nat) (b : Buffer) : Except Fault (Buffer × List Byte) :=
  match popUpTo c n b with
  | .ok (b', vs) => .ok (b', vs.map slotByte)
  | .error e => .error e

/-- WRITE on the buffer (R107, R108): PUSH of every byte, first byte first. -/
def pushAll (c : Config) : List Slot → Buffer → Buffer
  | [], b => b
  | v :: vs, b => pushAll c vs (pushSlot c v b)

/-- READ. The code is reserved unless `DATA_BITS = 8` (`spec/30_encoding.md` R65), and a length that does not fit
`COUNT_BITS` is refused (R60). -/
def execRead (n : Nat) (s : State) : Host.Outcome State Fault Refusal :=
  if dataBitsIs8 s.config = false then .refused .byteOperationAbsent
  else if lengthFits s.config n = false then .refused (.lengthDoesNotFit n)
  else
    onLive s fun b =>
      match readBytes s.config n b with
      | .ok (b', bs) => .ok (b', .bytes bs.length bs)
      | .error e => .error e

/-- WRITE. The count is the source's length, whatever the state (R109). -/
def execWrite (src : List Byte) (s : State) : Host.Outcome State Fault Refusal :=
  if dataBitsIs8 s.config = false then .refused .byteOperationAbsent
  else if lengthFits s.config src.length = false then .refused (.lengthDoesNotFit src.length)
  else onLive s fun b => .ok (pushAll s.config (src.map byteSlot) b, .count src.length)

end Sys2Proof.Machine
end

