-- ==== Sys2Proof/Machine/ClearDrain.lean ====
section
/-! DEFINITION. CLEAR and DRAIN (spec/43_clear_drain.md). -/

namespace Sys2Proof.Machine

/-- CLEAR (R94). -/
def execClear (s : State) : Host.Outcome State Fault Refusal :=
  onLive s fun b => .ok (zeroCursors b, .unit)

/-- DRAIN on the buffer (R97, R98): repeated NEXT until `None`, then CLEAR. At most `M - 1` values come (R99,
`spec/30_encoding.md` R70), so `M` turns always reach the `None`. -/
def drainSlots (c : Config) (b : Buffer) : Except Fault (Buffer × List Slot) :=
  match popUpTo c (positions c) b with
  | .ok (b', vs) => .ok (zeroCursors b', vs)
  | .error e => .error e

/-- DRAIN. -/
def execDrain (s : State) : Host.Outcome State Fault Refusal :=
  onLive s fun b =>
    match drainSlots s.config b with
    | .ok (b', vs) => .ok (b', .seq vs)
    | .error e => .error e

end Sys2Proof.Machine
end

