-- ==== Sys2Proof/Machine/Construct.lean ====
section
/-! DEFINITION. CONSTRUCT and DESTROY (spec/40_construct.md). -/

namespace Sys2Proof.Machine

/-- CONSTRUCT (R72, R73, R74): a fresh `Live` instance whatever there was before, or `ConstructionFailure` when the static
`CAPACITY` is not legal. CONSTRUCT returns that fault instead of a state (`spec/60_exceptions.md` R118). The legality check
precedes every state write (`spec/60_exceptions.md` R117). -/
def execConstruct (s : State) : Host.Outcome State Fault Refusal :=
  if legalParameters s.config = false then .refused .parametersOutOfRange
  else if legalCapacity s.config then .next (s.restart (.live Buffer.fresh))
  else raiseConstructionFailure s

/-- DESTROY (R76): storage and registers cease to exist, whatever is unread is abandoned. On an `Absent` or `Failed`
instance it does nothing (R77). R76 and `spec/70_reset_and_hazards.md` R129 make it the end of a run; that the model's step
goes on to the owner's later events, of which only an `rst` has a meaning then, is a DESIGN CHOICE (log entry 18). -/
def destroy (s : State) : State :=
  match s.block with
  | .live _ => s.restart .absent
  | .absent => s
  | .failed _ => s

end Sys2Proof.Machine
end

