-- ==== Sys2Proof/Machine/Dispatch.lean ====
section
/-! DEFINITION. From an operation to its meaning. -/

namespace Sys2Proof.Machine

def exec (i : Instr) (s : State) : Host.Outcome State Fault Refusal :=
  match i with
  | .construct => Sys2Proof.Machine.execConstruct s
  | .push v => Sys2Proof.Machine.execPush v s
  | .next => Sys2Proof.Machine.execNext s
  | .clear => Sys2Proof.Machine.execClear s
  | .drain => Sys2Proof.Machine.execDrain s
  | .read n => Sys2Proof.Machine.execRead n s
  | .write src => Sys2Proof.Machine.execWrite src s

end Sys2Proof.Machine
end

