-- ==== Sys2Proof/Machine/Issue.lean ====
section
/-! DEFINITION. What the block does with one thing the owner does. -/

namespace Sys2Proof.Machine

/-- One sample of the input ports: the operation it spells is performed whole (`spec/30_encoding.md` R56); with no command
presented the block holds its state (`spec/60_exceptions.md` R124); a sample that spells no operation is refused (R64). -/
def issue (p : Ports) (s : State) : Host.Outcome State Fault Refusal :=
  match decode s.config p with
  | .ok i => settle s (exec i s)
  | .error .noCommand => .next s
  | .error r => .refused (.undecodable r)

/-- One event of the owner (`spec/70_reset_and_hazards.md` R129). That events after a DESTROY are still performed is
a DESIGN CHOICE (log entry 18). -/
def perform (e : OwnerEvent) (s : State) : Host.Outcome State Fault Refusal :=
  match e with
  | .drive p => issue p s
  | .destroy => .next (destroy s)

end Sys2Proof.Machine
end

