-- ==== Sys2Proof/Machine/Step.lean ====
section
/-! DEFINITION. One step: the owner's next event. -/

namespace Sys2Proof.Machine

/-- The owner's next event is taken from its list and performed. When the owner has nothing more to do the block holds its
state (`spec/60_exceptions.md` R124). The list goes on after a DESTROY, which R129 calls the end of the run: a DESIGN CHOICE
(log entry 18). -/
def step (s : State) : Host.Outcome State Fault Refusal :=
  match s.owner with
  | [] => .next s
  | e :: rest => perform e (s.withOwner rest)

/-- The state in which the owner's next event is the command of an opcode-table word, operands zero. -/
def State.withFetchWord (s : State) (nbits w : Nat) : State :=
  s.withOwner (.drive (tableWordPorts s.config nbits w) :: s.owner)

end Sys2Proof.Machine
end

