-- ==== Sys2Proof/Machine/Outputs.lean ====
section
/-! DEFINITION. The output ports (spec/30_encoding.md R57), read off the state. -/

namespace Sys2Proof.Machine

/-- The output ports between commands. `none` stands where the spec promises nothing: a response port the last command
does not name, `rsp_data` of a `None` (R62), and a status output of an instance that has no registers (R26). -/
structure Outputs where
  cmdReady : Bool
  rspValid : Bool
  rspSome  : Option Bool
  rspData  : Option Slot
  rspSeq   : Option (List Slot)
  rspCount : Option Nat
  empty    : Option Bool
  full     : Option Bool
  overrun  : Option Bool
  capacity : Option Nat
  deriving DecidableEq, Repr

/-- `rsp_some` (R57, R62). -/
def rspSome : Option Result → Option Bool
  | some (.opt v) => some v.isSome
  | _ => none

/-- `rsp_data`: the value of a `Some`; no promise on a `None` (R62). -/
def rspData : Option Result → Option Slot
  | some (.opt v) => v
  | _ => none

/-- `rsp_seq`: DRAIN's elements, or READ's bytes. -/
def rspSeq : Option Result → Option (List Slot)
  | some (.seq vs) => some vs
  | some (.bytes _ vs) => some (vs.map byteSlot)
  | _ => none

/-- `rsp_count`: READ's and WRITE's count. -/
def rspCount : Option Result → Option Nat
  | some (.bytes n _) => some n
  | some (.count n) => some n
  | _ => none

/-- A status output: a function of the registers of a `Live` instance (R28 to R32). -/
def statusOutput {α : Type} (s : State) (f : Buffer → α) : Option α :=
  match s.block with
  | .live b => some (f b)
  | .absent => none
  | .failed _ => none

/-- The output ports of a state. `cmd_ready` is 1 exactly on a `Live` instance, no command being in progress between
steps (R56, R57, `spec/40_construct.md` R77). DESIGN CHOICE (log entry 10): `rsp_valid` is 1 after every completed command, also after
PUSH and CLEAR, whose completion is the only response (R61), and 0 after CONSTRUCT and DESTROY. -/
def outputs (s : State) : Outputs :=
  { cmdReady := s.status == .live
    rspValid := s.result.isSome
    rspSome  := rspSome s.result
    rspData  := rspData s.result
    rspSeq   := rspSeq s.result
    rspCount := rspCount s.result
    empty    := statusOutput s isEmpty
    full     := statusOutput s (isFull s.config)
    overrun  := statusOutput s (isOverrun s.config)
    capacity := statusOutput s fun _ => s.config.capacity }

end Sys2Proof.Machine
end

