-- ==== Sys2Proof/Safety.lean ====
section
/-! DEFINITION. What a sound state is, what repeated NEXT yields, what an ideal queue would do, and what it is to stay
inside the envelope: the terms the statements are made in. -/

namespace Sys2Proof.Machine

/-! The invariant. -/

/-- The cursor registers are in range (`spec/10_state.md` R38). -/
def registersLegal (c : Config) (b : Buffer) : Prop :=
  b.writeIndex < c.capacity ∧ b.readIndex < c.capacity ∧ b.writeEpoch < epochs c ∧ b.readEpoch < epochs c

/-- The storage is in its canonical form, and every slot with a value is a slot of the instance, `DATA_BITS` wide
(`spec/10_state.md` R33, `spec/20_memory.md` R40). -/
def storageLegal (c : Config) (b : Buffer) : Prop :=
  b.storage.wf = true ∧ ∀ cell ∈ b.storage, cell.1 < c.capacity ∧ slotFits c cell.2 = true

/-- The two counters of the proof of `spec/10_state.md` R34: `p` pushes since the last CONSTRUCT or CLEAR, and `g`
positions that the read pointer has left behind. The registers are those counts modulo their widths, and every slot that
one of the `p` pushes wrote holds a value. -/
def tracedBy (c : Config) (b : Buffer) (p g : Nat) : Prop :=
  g ≤ p ∧
  b.writeIndex = p % c.capacity ∧ b.writeEpoch = p / c.capacity % epochs c ∧
  b.readIndex = g % c.capacity ∧ b.readEpoch = g / c.capacity % epochs c ∧
  ∀ i, i < c.capacity → i < p → (b.storage.read i).isSome = true

/-- A sound `Live` buffer. -/
def bufferSound (c : Config) (b : Buffer) : Prop :=
  registersLegal c b ∧ storageLegal c b ∧ ∃ p g, tracedBy c b p g

/-- The invariant of the machine. A `Live` instance has legal parameters and a sound buffer. A `Failed` one has a capacity
that is not legal, and recorded it (`spec/60_exceptions.md` R112). -/
def State.Inv (s : State) : Prop :=
  match s.block with
  | .absent => True
  | .live b => legalParameters s.config = true ∧ legalCapacity s.config = true ∧ bufferSound s.config b
  | .failed f => legalCapacity s.config = false ∧ f = { code := 1, capacity := s.config.capacity }

/-! Repeated NEXT. -/

/-- `Pops c b vs b'`: from `b`, NEXT issued `vs.length` times in a row returns `Some` each time, the values `vs` in that
order, and leaves `b'` (`spec/43_clear_drain.md` R98, `spec/44_bulk.md` R103). -/
inductive Pops (c : Config) : Buffer → List Slot → Buffer → Prop where
  | none (b : Buffer) : Pops c b [] b
  | more {b b1 b2 : Buffer} {v : Slot} {vs : List Slot} :
      popSlot c b = .ok (b1, some v) → Pops c b1 vs b2 → Pops c b (v :: vs) b2

/-! The ideal queue and the envelope. -/

/-- A queue of depth `depth` that drops its oldest element on overflow (`spec/42_next.md` R93). -/
def idealPush (depth : Nat) (q : List Slot) (v : Slot) : List Slot :=
  if q.length < depth then q ++ [v] else q.tail ++ [v]

/-- `e`, how many epochs the writer is ahead of the reader (`spec/70_reset_and_hazards.md` R131). -/
def epochsAhead (c : Config) (b : Buffer) : Nat := epochGap c b.readEpoch b.writeEpoch

/-- `InEnvelope c b q`: the buffer `b` was reached from a CONSTRUCT or a CLEAR by PUSH and NEXT alone, after each of which
the writer was at most one epoch ahead (`spec/70_reset_and_hazards.md` R132), and `q` is what an ideal queue holds after the
same commands. The composite operations are these primitives in a row (`spec/30_encoding.md` R68). -/
inductive InEnvelope (c : Config) : Buffer → List Slot → Prop where
  | start {b : Buffer} : storageLegal c b → InEnvelope c (zeroCursors b) []
  | push {b : Buffer} {q : List Slot} {v : Slot} :
      InEnvelope c b q → slotFits c v = true → epochsAhead c (pushSlot c v b) ≤ 1 →
      InEnvelope c (pushSlot c v b) (idealPush c.capacity q v)
  | next {b b' : Buffer} {q : List Slot} {r : Option Slot} :
      InEnvelope c b q → popSlot c b = .ok (b', r) → epochsAhead c b' ≤ 1 → InEnvelope c b' q.tail

/-! Runs. -/

/-- What a successful run ends with (`spec/92_eei_decisions.md` D21): a state, and not a `Failed` one. -/
def successfulEnd : Host.Outcome State Fault Refusal → Bool
  | .next s => s.status != .failed
  | .fault _ => false
  | .refused _ => false

/-- `k` steps of the owner's plan from a state end well. -/
def SafeRun (k : Nat) (s : State) : Prop := successfulEnd (Host.Core.run core k s) = true

end Sys2Proof.Machine
end

