-- ==== Sys2Proof/Certificates/Slice0/Obligations.lean ====
section
/-! DEFINITION. The statements for the provers. Each docstring names the rule of spec/ it formalises and, where a clause
rests on the spec's own inference or on a choice of the model, says so. -/

open Sys2Proof Sys2Proof.Machine

/-! Reset and the instance's life. -/

/-- `spec/70_reset_and_hazards.md` R126. -/
def Obligations.ResetIsConstructedAndEmpty : Prop :=
  State.reset.status = .live ∧
  ∃ b, State.reset.block = .live b ∧
    b.writeIndex = 0 ∧ b.readIndex = 0 ∧ b.writeEpoch = 0 ∧ b.readEpoch = 0 ∧
    (∀ i, b.storage.read i = none) ∧
    isEmpty b = true ∧ isFull State.reset.config b = false ∧ isOverrun State.reset.config b = false

/-- CONSTRUCT, whatever there was before (`spec/40_construct.md` section CONSTRUCT): a fresh `Live` instance for a legal
capacity, and the fault `ConstructionFailure` instead of a state for another (`spec/60_exceptions.md` section 4). The premise on
the other parameters is the model's choice (log entry 7), and so is that nothing is left on the response ports (log entry
10). -/
def Obligations.ConstructBuildsOrFails : Prop :=
  ∀ s : State, legalParameters s.config = true →
    (legalCapacity s.config = true ↔ 1 ≤ s.config.capacity ∧ s.config.capacity ≤ s.config.maxCapacity) ∧
    (legalCapacity s.config = true →
      ∃ t b, exec .construct s = .next t ∧ t.status = .live ∧ t.block = .live b ∧
        b.writeIndex = 0 ∧ b.readIndex = 0 ∧ b.writeEpoch = 0 ∧ b.readEpoch = 0 ∧ (∀ i, b.storage.read i = none) ∧
        isEmpty b = true ∧ isFull t.config b = false ∧ isOverrun t.config b = false ∧
        t.config = s.config ∧ t.owner = s.owner ∧ t.result = none) ∧
    (legalCapacity s.config = false →
      exec .construct s = .fault (.constructionFailure { code := 1, capacity := s.config.capacity }))

/-- `ConstructionFailure` (`spec/60_exceptions.md` sections 1 and 4): raised by CONSTRUCT and by nothing else, exactly when the
capacity is not legal, with code 1 and the offending capacity; the instance is then `Failed`, with no register and no storage
and with `cmd_ready` 0. That the step which runs it goes on in that state is DEDUCED (log entry 5), that other parameters out of
range are refused first is log entry 7, and that nothing is left on the response ports is log entry 10. -/
def Obligations.ConstructionFailureTaken : Prop :=
  (∀ (i : Instr) (s : State) (f : ConstructionFailure), exec i s = .fault (.constructionFailure f) →
    i = .construct ∧ legalCapacity s.config = false ∧ f = { code := 1, capacity := s.config.capacity }) ∧
  (∀ (i : Instr) (s t : State), exec i s = .next t → t.status = .live) ∧
  (∀ s : State, legalParameters s.config = true → legalCapacity s.config = false →
    exec .construct s = .fault (.constructionFailure { code := 1, capacity := s.config.capacity })) ∧
  (∀ (s : State) (p : Ports) (rest : List OwnerEvent), s.owner = .drive p :: rest → p.rst = true →
    legalParameters s.config = true → legalCapacity s.config = false →
    ∃ t, step s = .next t ∧ t.status = .failed ∧ t.block = .failed { code := 1, capacity := s.config.capacity } ∧
      t.config = s.config ∧ t.owner = rest ∧ t.result = none ∧ (outputs t).cmdReady = false)

/-- A request outside the parameters is refused (`spec/00_scope.md` R15): CONSTRUCT of an instance whose other parameters are
outside their ranges, and PUSH of a value that is not `DATA_BITS` wide. That these two meanings are where the model refuses
it is the model's choice: log entries 7 and 8. -/
def Obligations.RequestsOutsideParametersRefused : Prop :=
  ∀ s : State,
    (legalParameters s.config = true ↔
      1 ≤ s.config.maxCapacity ∧ 1 ≤ s.config.dataBits ∧ 2 ≤ s.config.epochBits ∧
        ∀ k, s.config.countBits = some k → 1 ≤ k) ∧
    (legalParameters s.config = false → exec .construct s = .refused .parametersOutOfRange) ∧
    (∀ v : Slot, v.width ≠ s.config.dataBits → exec (.push v) s = .refused (.dataWidth v.width))

/-- `INDEX_BITS` (`spec/00_scope.md` section 4): the least width, and at least one bit, that holds every legal index. -/
def Obligations.IndexBitsHoldEveryIndex : Prop :=
  ∀ c : Config, legalCapacity c = true →
    indexBits c = max 1 (Nat.clog 2 c.capacity) ∧
    (∀ b : Buffer, registersLegal c b → b.writeIndex < 2 ^ indexBits c ∧ b.readIndex < 2 ^ indexBits c) ∧
    (∀ n, 1 ≤ n → c.capacity ≤ 2 ^ n → indexBits c ≤ n)

/-- `spec/40_construct.md` R77. -/
def Obligations.OnlyLiveInstancesTakeCommands : Prop :=
  ∀ s : State, s.status ≠ .live →
    (∀ i : Instr, i ≠ .construct → i.wellFormed s.config = true → exec i s = .refused (.notLive s.status)) ∧
    (∀ i : Instr, i ≠ .construct → ∃ r, exec i s = .refused r) ∧
    (outputs s).cmdReady = false ∧
    destroy s = s

/-- A `Failed` instance stays as it is, whatever the owner does that has a meaning (`spec/60_exceptions.md` section 4). -/
def Obligations.FailedInstanceStaysFailed : Prop :=
  ∀ s t : State, s.Inv → s.status = .failed → step s = .next t → t.status = .failed ∧ t.block = s.block

/-- DESTROY (`spec/40_construct.md` section DESTROY): the registers and the storage cease to exist, nothing is returned, and what
is gone cannot be destroyed again. That DESTROY is an event of the owner's list is the model's choice (log entry 6), so is that
nothing is left on the response ports (log entry 10), and so is that the rest of the list stays (log entry 18). -/
def Obligations.DestroyEndsTheInstance : Prop :=
  ∀ (s : State) (b : Buffer) (rest : List OwnerEvent), s.block = .live b → s.owner = .destroy :: rest →
    ∃ t, step s = .next t ∧ t.status = .absent ∧ t.block = .absent ∧ t.config = s.config ∧ t.owner = rest ∧
      t.result = none ∧ destroy t = t

/-! PUSH. -/

/-- `spec/41_push.md` R78, R79. -/
def Obligations.PushStoresThenAdvances : Prop :=
  ∀ (s : State) (b : Buffer) (v : Slot), s.block = .live b → b.writeIndex < s.config.capacity →
    v.width = s.config.dataBits →
    ∃ b', exec (.push v) s = .next (s.complete b' .unit) ∧
      b'.storage.read b.writeIndex = some v ∧ (∀ i, i ≠ b.writeIndex → b'.storage.read i = b.storage.read i) ∧
      b'.writeIndex = (b.writeIndex + 1) % s.config.capacity ∧
      b'.writeEpoch = (if (b.writeIndex + 1) % s.config.capacity = 0 then (b.writeEpoch + 1) % 2 ^ s.config.epochBits
        else b.writeEpoch) ∧
      b'.readIndex = b.readIndex ∧ b'.readEpoch = b.readEpoch

/-- `spec/41_push.md` R80. -/
def Obligations.IndexAdvanceIsCircular : Prop :=
  ∀ (c : Config) (i : Nat), i < c.capacity →
    nextIndex c i = (i + 1) % c.capacity ∧
    nextIndex c i = (if i < c.capacity - 1 then i + 1 else 0) ∧
    (wraps c i = true ↔ nextIndex c i = 0) ∧ (wraps c i = true ↔ i = c.capacity - 1) ∧
    i + 1 ≤ c.capacity ∧
    (c.capacity = 1 → i = 0 ∧ nextIndex c 0 = 0 ∧ wraps c 0 = true)

/-- `spec/41_push.md` R81: the increment, and that it happens in the step of the index wrap that causes it and at no other
time, on both sides. -/
def Obligations.EpochCountsWraps : Prop :=
  (∀ (c : Config) (e : Nat), e < 2 ^ c.epochBits →
    incEpoch c e = (e + 1) % 2 ^ c.epochBits ∧ incEpoch c (2 ^ c.epochBits - 1) = 0 ∧
    (c.epochBits = 8 → incEpoch c 255 = 0)) ∧
  (∀ (c : Config) (b b' : Buffer) (v : Slot), b' = pushSlot c v b →
    b'.readEpoch = b.readEpoch ∧
    b'.writeEpoch = if b'.writeIndex = 0 then (b.writeEpoch + 1) % 2 ^ c.epochBits else b.writeEpoch) ∧
  (∀ (c : Config) (b b' : Buffer) (v : Slot), popSlot c b = .ok (b', some v) →
    b'.writeEpoch = b.writeEpoch ∧
    b'.readEpoch = if b'.readIndex = 0 then (b.readEpoch + 1) % 2 ^ c.epochBits else b.readEpoch)

/-- The two overwrites of a PUSH while FULL (`spec/41_push.md` section PUSH, corner case (c), the spec's inference). Before the
last slot it makes OVERRUN true with the writer one epoch ahead. At the last slot, with both indices there, it wraps the
write index: the writer is two epochs ahead and OVERRUN is false. -/
def Obligations.OverwriteWhileFull : Prop :=
  ∀ (c : Config) (b b' : Buffer) (v : Slot), legalParameters c = true → registersLegal c b →
    isFull c b = true → b' = pushSlot c v b →
    b'.storage.read b.readIndex = some v ∧
    (b.writeIndex < c.capacity - 1 → isOverrun c b' = true ∧ epochsAhead c b' = 1) ∧
    (b.writeIndex = c.capacity - 1 →
      b'.writeIndex = 0 ∧ b'.readIndex = c.capacity - 1 ∧ epochsAhead c b' = 2 ∧
      isOverrun c b' = false ∧ isEmpty b' = false ∧ isFull c b' = false)

/-- The epoch-counter alias (`spec/70_reset_and_hazards.md` section 4, the spec's inference): `2^EPOCH_BITS * CAPACITY` pushes
with no NEXT between bring the write pointer back. -/
def Obligations.PushesOfAllPositionsAlias : Prop :=
  ∀ (c : Config) (b : Buffer) (vs : List Slot), registersLegal c b → vs.length = 2 ^ c.epochBits * c.capacity →
    (pushAll c vs b).writeIndex = b.writeIndex ∧ (pushAll c vs b).writeEpoch = b.writeEpoch ∧
    (pushAll c vs b).readIndex = b.readIndex ∧ (pushAll c vs b).readEpoch = b.readEpoch ∧
    isEmpty (pushAll c vs b) = isEmpty b

/-! The status conditions. -/

/-- `spec/10_state.md` R27, with the properties it asks of any admissible comparison. -/
def Obligations.BehindIsSignedDifference : Prop :=
  ∀ c : Config, 2 ≤ c.epochBits → ∀ r w : Nat, r < 2 ^ c.epochBits → w < 2 ^ c.epochBits →
    (((w : Int) - (r : Int)) % (2 ^ c.epochBits : Nat) = (epochGap c r w : Int)) ∧
    (behind c r w = true ↔ 1 ≤ epochGap c r w ∧ epochGap c r w ≤ 2 ^ (c.epochBits - 1) - 1) ∧
    (behind c r w = true ↔ epochGap c r w ≠ 0 ∧ (epochGap c r w).testBit (c.epochBits - 1) = false) ∧
    (behind c r w = true ↔ 0 < (BitVec.ofNat c.epochBits w - BitVec.ofNat c.epochBits r).toInt) ∧
    (c.epochBits = 8 → (behind c r w = true ↔ 1 ≤ epochGap c r w ∧ epochGap c r w ≤ 127)) ∧
    behind c r r = false ∧ behind c r (incEpoch c r) = true

/-- `spec/10_state.md` R28: the condition, when it holds, and when a PUSH ends it or brings it about. -/
def Obligations.EmptyConditionFollowsCommands : Prop :=
  (∀ b : Buffer, isEmpty b = true ↔ b.readIndex = b.writeIndex ∧ b.readEpoch = b.writeEpoch) ∧
  (∀ (i : Instr) (s t : State) (b : Buffer), i = .construct ∨ i = .clear ∨ i = .drain → exec i s = .next t →
    t.block = .live b → isEmpty b = true) ∧
  (∀ (c : Config) (b b' : Buffer) (v : Slot), legalParameters c = true → registersLegal c b →
    b' = pushSlot c v b →
    (isEmpty b = true → isEmpty b' = false) ∧
    (isEmpty b = false → (isEmpty b' = true ↔ pending c b = 2 ^ c.epochBits * c.capacity - 1)))

/-- FULL (`spec/10_state.md` section 4): equal indices and the writer exactly one epoch ahead, which the spec infers is a
pending run of `CAPACITY`. -/
def Obligations.FullIsPendingCapacity : Prop :=
  ∀ (c : Config) (b : Buffer), legalParameters c = true → registersLegal c b →
    (isFull c b = true ↔
      b.readIndex = b.writeIndex ∧ ((b.writeEpoch : Int) - (b.readEpoch : Int)) % (2 ^ c.epochBits : Nat) = 1) ∧
    (isFull c b = true ↔ pending c b = c.capacity)

/-- `spec/10_state.md` R30: the condition, and that the jump of the NEXT that finds it clears it. -/
def Obligations.OverrunClearedByJump : Prop :=
  ∀ (c : Config) (b : Buffer),
    (isOverrun c b = true ↔ behind c b.readEpoch b.writeEpoch = true ∧ b.readIndex < b.writeIndex) ∧
    (isOverrun c b = true →
      (catchUp c b).readIndex = (catchUp c b).writeIndex ∧ isOverrun c (catchUp c b) = false)

/-- The three conditions are pairwise exclusive (`spec/10_state.md` section 4, the spec's inference). -/
def Obligations.StatusConditionsExclusive : Prop :=
  ∀ (c : Config) (b : Buffer), legalParameters c = true → registersLegal c b →
    ¬ (isEmpty b = true ∧ isFull c b = true) ∧ ¬ (isEmpty b = true ∧ isOverrun c b = true) ∧
    ¬ (isFull c b = true ∧ isOverrun c b = true)

/-- The output ports of a `Live` instance (`spec/30_encoding.md` section 1, `spec/10_state.md` section 5): the status outputs
are the conditions of the registers and `capacity` is the parameter. -/
def Obligations.OutputsShowTheRegisters : Prop :=
  ∀ (s : State) (b : Buffer), s.block = .live b →
    (outputs s).cmdReady = true ∧ (outputs s).capacity = some s.config.capacity ∧
    (outputs s).empty = some (isEmpty b) ∧ (outputs s).full = some (isFull s.config b) ∧
    (outputs s).overrun = some (isOverrun s.config b)

/-- The results as the owner sees them (`spec/30_encoding.md` section 4, `spec/40_construct.md` section CONSTRUCT): which response
each command leaves on the ports, and `rsp_valid`. That `rsp_valid` is 1 after PUSH and CLEAR and 0 after CONSTRUCT, which leaves
nothing on the ports, is the model's choice (log entry 10). -/
def Obligations.ResponsesMatchCommands : Prop :=
  ∀ (i : Instr) (s t : State), exec i s = .next t →
    match i with
    | .construct => t.result = none ∧ (outputs t).rspValid = false
    | .push _ => t.result = some .unit ∧ (outputs t).rspValid = true
    | .clear => t.result = some .unit ∧ (outputs t).rspValid = true
    | .next => ∃ v, t.result = some (.opt v) ∧ (outputs t).rspValid = true ∧ (outputs t).rspSome = some v.isSome ∧
        (outputs t).rspData = v
    | .drain => ∃ vs, t.result = some (.seq vs) ∧ (outputs t).rspValid = true ∧ (outputs t).rspSeq = some vs
    | .read n => ∃ vs, t.result = some (.bytes vs.length vs) ∧ vs.length ≤ n ∧ (outputs t).rspValid = true ∧
        (outputs t).rspCount = some vs.length ∧ (outputs t).rspSeq = some (vs.map byteSlot)
    | .write src => t.result = some (.count src.length) ∧ (outputs t).rspValid = true ∧
        (outputs t).rspCount = some src.length

/-! NEXT. -/

/-- `spec/42_next.md` R85. -/
def Obligations.NextOnEmptyReturnsNothing : Prop :=
  ∀ (s : State) (b : Buffer), s.block = .live b → b.readIndex = b.writeIndex → b.readEpoch = b.writeEpoch →
    exec .next s = .next (s.complete b (.opt none))

/-- `spec/42_next.md` R88, R89: on a sound instance that is not empty, the value is the content of the slot that the catch-up
step left the read index at, and the advance goes on from there. -/
def Obligations.NextReadsThenAdvances : Prop :=
  ∀ (s : State) (b : Buffer), s.Inv → s.block = .live b → isEmpty b = false →
    ∃ b' v, b.storage.read (catchUp s.config b).readIndex = some v ∧
      exec .next s = .next (s.complete b' (.opt (some v))) ∧
      b'.readIndex = nextIndex s.config (catchUp s.config b).readIndex ∧
      b'.readEpoch = (if (catchUp s.config b).readIndex = s.config.capacity - 1 then incEpoch s.config b.readEpoch
        else b.readEpoch) ∧
      b'.writeIndex = b.writeIndex ∧ b'.writeEpoch = b.writeEpoch ∧ b'.storage = b.storage

/-- `spec/42_next.md` R86, R87: the jump, taken exactly on the catch-up condition, writes `read_index` only, and the NEXT that
jumps still returns one element, the one at the write index, and advances one slot from there. -/
def Obligations.CatchUpJumpsToWriteIndex : Prop :=
  (∀ (c : Config) (b : Buffer),
    catchUp c b =
      if behind c b.readEpoch b.writeEpoch = true ∧ b.readIndex < b.writeIndex then { b with readIndex := b.writeIndex }
      else b) ∧
  (∀ (s : State) (b : Buffer), s.Inv → s.block = .live b → behind s.config b.readEpoch b.writeEpoch = true →
    b.readIndex < b.writeIndex →
    ∃ b' v, b.storage.read b.writeIndex = some v ∧ exec .next s = .next (s.complete b' (.opt (some v))) ∧
      b'.readIndex = nextIndex s.config b.writeIndex ∧ b'.writeIndex = b.writeIndex ∧ b'.writeEpoch = b.writeEpoch ∧
      b'.storage = b.storage)

/-- After a NEXT that returns a value OVERRUN is false, if the writer was at most one epoch ahead (`spec/42_next.md` section
NEXT: the exceptions need a writer two or more epochs ahead). -/
def Obligations.NextLeavesNoOverrunInEnvelope : Prop :=
  ∀ (c : Config) (b b' : Buffer) (v : Slot), legalParameters c = true → bufferSound c b → epochsAhead c b ≤ 1 →
    popSlot c b = .ok (b', some v) → isOverrun c b' = false

/-- With the writer half the epoch range or more ahead no jump is taken, whatever the indices
(`spec/70_reset_and_hazards.md` section 4, the spec's inference), and a NEXT reads at `read_index`. -/
def Obligations.HalfRangeTakesNoJump : Prop :=
  ∀ (c : Config) (b : Buffer), 2 ^ (c.epochBits - 1) ≤ epochsAhead c b →
    isOverrun c b = false ∧
    ∀ (b' : Buffer) (v : Slot), popSlot c b = .ok (b', some v) → b.storage.read b.readIndex = some v

/-- With one slot there is never a jump, and every successful NEXT reads slot 0 and increments `read_epoch`
(`spec/42_next.md` section NEXT, corner case (d), the spec's inference). -/
def Obligations.SingleSlotNeverJumps : Prop :=
  ∀ (c : Config) (b b' : Buffer) (v : Slot), c.capacity = 1 → registersLegal c b → popSlot c b = .ok (b', some v) →
    isOverrun c b = false ∧ b.storage.read 0 = some v ∧ b'.readIndex = 0 ∧ b'.readEpoch = incEpoch c b.readEpoch

/-! The modular count. -/

/-- `pending` is 0 exactly on EMPTY, stays below `M`, and a PUSH adds one modulo `M` (`spec/70_reset_and_hazards.md` section 4,
the spec's inference). -/
def Obligations.PendingCountsPushes : Prop :=
  ∀ (c : Config) (b : Buffer), registersLegal c b →
    pending c b < 2 ^ c.epochBits * c.capacity ∧ (pending c b = 0 ↔ isEmpty b = true) ∧ pending c (zeroCursors b) = 0 ∧
    ∀ (v : Slot) (b' : Buffer), b' = pushSlot c v b →
      pending c b' = (pending c b + 1) % (2 ^ c.epochBits * c.capacity)

/-- A NEXT that returns a value lowers `pending`: by one without a jump, and with one by `(write_index - read_index) + 1`, to
`e * CAPACITY - 1` (`spec/42_next.md` and `spec/70_reset_and_hazards.md`, the spec's inference). -/
def Obligations.NextLowersPending : Prop :=
  ∀ (c : Config) (b b' : Buffer) (v : Slot), registersLegal c b → popSlot c b = .ok (b', some v) →
    pending c b' < pending c b ∧
    (isOverrun c b = false → pending c b' + 1 = pending c b) ∧
    (isOverrun c b = true → pending c b' + (b.writeIndex - b.readIndex + 1) = pending c b ∧
      pending c b' + 1 = epochsAhead c b * c.capacity)

/-! CLEAR and DRAIN. -/

/-- `spec/43_clear_drain.md` R94. -/
def Obligations.ClearZeroesTheCursors : Prop :=
  ∀ (s : State) (b : Buffer), s.block = .live b →
    ∃ b', exec .clear s = .next (s.complete b' .unit) ∧
      b'.writeIndex = 0 ∧ b'.readIndex = 0 ∧ b'.writeEpoch = 0 ∧ b'.readEpoch = 0 ∧ b'.storage = b.storage ∧
      isEmpty b' = true ∧ isFull s.config b' = false ∧ isOverrun s.config b' = false

/-- After a CLEAR the next NEXT returns nothing and a second CLEAR changes nothing; the next PUSH writes slot 0, which every
legal capacity has (`spec/43_clear_drain.md` section CLEAR, the spec's inference). -/
def Obligations.ClearForgetsEverything : Prop :=
  ∀ s t : State, exec .clear s = .next t →
    (∃ u, exec .next t = .next u ∧ u.result = some (.opt none) ∧ u.block = t.block) ∧
    (∃ u, exec .clear t = .next u ∧ u.block = t.block) ∧
    (legalCapacity t.config = true →
      ∀ v u b, exec (.push v) t = .next u → u.block = .live b → b.storage.read 0 = some v)

/-- `spec/43_clear_drain.md` R97: what repeated NEXT returns until it returns `None`, in that order, and the buffer cleared. -/
def Obligations.DrainIsNextUntilNoneThenClear : Prop :=
  ∀ (s : State) (b : Buffer), s.Inv → s.block = .live b →
    ∃ vs b', Pops s.config b vs b' ∧ popSlot s.config b' = .ok (b', none) ∧
      exec .drain s = .next (s.complete (zeroCursors b') (.seq vs)) ∧ b'.storage = b.storage ∧
      isEmpty (zeroCursors b') = true ∧ isFull s.config (zeroCursors b') = false ∧
      isOverrun s.config (zeroCursors b') = false

/-- DRAIN ends: it returns at most `pending` elements (`spec/43_clear_drain.md` section DRAIN, the spec's inference). -/
def Obligations.DrainReturnsAtMostPending : Prop :=
  ∀ (s t : State) (b : Buffer) (vs : List Slot), s.Inv → s.block = .live b → exec .drain s = .next t →
    t.result = some (.seq vs) → vs.length ≤ pending s.config b ∧ vs.length ≤ 2 ^ s.config.epochBits * s.config.capacity - 1

/-! READ and WRITE. -/

/-- `spec/44_bulk.md` R103, R104: as many successful NEXT as bytes delivered, in order, stopping when there is no room or no
element. -/
def Obligations.ReadDeliversInOrder : Prop :=
  ∀ (s : State) (b : Buffer) (n : Nat), s.Inv → s.block = .live b → Instr.wellFormed s.config (.read n) = true →
    ∃ vs b', Pops s.config b vs b' ∧ (vs.length = n ∨ vs.length < n ∧ popSlot s.config b' = .ok (b', none)) ∧
      exec (.read n) s = .next (s.complete b' (.bytes vs.length (vs.map slotByte))) ∧
      vs.map (fun v => byteSlot (slotByte v)) = vs

/-- READ with no room or on an empty buffer pops nothing (`spec/44_bulk.md` section READ, corner cases (a) and (b), the spec's
inference). -/
def Obligations.ReadOfNothingChangesNothing : Prop :=
  ∀ (s : State) (b : Buffer) (n : Nat), s.block = .live b → Instr.wellFormed s.config (.read n) = true →
    n = 0 ∨ isEmpty b = true → exec (.read n) s = .next (s.complete b (.bytes 0 []))

/-- `spec/44_bulk.md` R107, R109: WRITE is PUSH of every byte in order, and its count is the source's length. -/
def Obligations.WriteIsRepeatedPush : Prop :=
  ∀ (s : State) (b : Buffer), s.block = .live b →
    (Instr.wellFormed s.config (.write []) = true → exec (.write []) s = .next (s.complete b (.count 0))) ∧
    (∀ (x : Byte) (xs : List Byte), Instr.wellFormed s.config (.write (x :: xs)) = true →
      ∃ t u bu, exec (.push (byteSlot x)) s = .next t ∧ exec (.write xs) t = .next u ∧ u.block = .live bu ∧
        exec (.write (x :: xs)) s = .next (s.complete bu (.count (xs.length + 1))))

/-- Where WRITE leaves the registers and the storage (`spec/44_bulk.md` section WRITE and `spec/20_memory.md` section 8, the
spec's inference): the pointer has advanced by `L` positions, the last `CAPACITY` bytes stand in the slots they were pushed
to, and slots passed by none are unchanged. -/
def Obligations.WriteAdvancesByLength : Prop :=
  ∀ (s : State) (b : Buffer) (src : List Byte), s.block = .live b → registersLegal s.config b →
    Instr.wellFormed s.config (.write src) = true →
    ∃ b', exec (.write src) s = .next (s.complete b' (.count src.length)) ∧
      b'.writeIndex = (b.writeIndex + src.length) % s.config.capacity ∧
      b'.writeEpoch = (b.writeEpoch + (b.writeIndex + src.length) / s.config.capacity) % 2 ^ s.config.epochBits ∧
      b'.readIndex = b.readIndex ∧ b'.readEpoch = b.readEpoch ∧
      (∀ (k : Nat) (x : Byte), src[k]? = some x → src.length ≤ k + s.config.capacity →
        b'.storage.read ((b.writeIndex + k) % s.config.capacity) = some (byteSlot x)) ∧
      (∀ i, (∀ k, k < src.length → (b.writeIndex + k) % s.config.capacity ≠ i) → b'.storage.read i = b.storage.read i)

/-- On an instance whose `DATA_BITS` is not 8, the codes of READ and WRITE are reserved and refused
(`spec/30_encoding.md` section 5). -/
def Obligations.ByteCommandsNeedEightBits : Prop :=
  ∀ s : State, s.config.dataBits ≠ 8 →
    (∀ n, exec (.read n) s = .refused .byteOperationAbsent) ∧ (∀ src, exec (.write src) s = .refused .byteOperationAbsent) ∧
    (∀ p : Ports, p.rst = false → p.cmdValid = true → p.cmdOp = 0b101#3 ∨ p.cmdOp = 0b110#3 →
      ∃ r, issue p s = .refused (.undecodable r))

/-- A length that does not fit a finite `COUNT_BITS` is refused; with no `COUNT_BITS` every length is taken
(`spec/00_scope.md` R9). -/
def Obligations.LengthsMustFitCountBits : Prop :=
  ∀ s : State, s.config.dataBits = 8 →
    (∀ k, s.config.countBits = some k →
      (∀ n, 2 ^ k ≤ n → exec (.read n) s = .refused (.lengthDoesNotFit n)) ∧
      (∀ src : List Byte, 2 ^ k ≤ src.length → exec (.write src) s = .refused (.lengthDoesNotFit src.length)) ∧
      (∀ n, n < 2 ^ k → Instr.wellFormed s.config (.read n) = true) ∧
      (∀ src : List Byte, src.length < 2 ^ k → Instr.wellFormed s.config (.write src) = true)) ∧
    (s.config.countBits = none →
      (∀ n, Instr.wellFormed s.config (.read n) = true) ∧
      ∀ src : List Byte, Instr.wellFormed s.config (.write src) = true)

/-! Frames. -/

/-- What the storing commands leave unchanged: parameters, owner, the read pointer, and every slot but those at the write
index as each store finds it. -/
def Obligations.StoringCommandsFrame : Prop :=
  ∀ (s t : State) (b b' : Buffer), s.block = .live b → t.block = .live b' →
    (∀ v, exec (.push v) s = .next t →
      t.config = s.config ∧ t.owner = s.owner ∧ b'.readIndex = b.readIndex ∧ b'.readEpoch = b.readEpoch ∧
      ∀ a, a ≠ b.writeIndex → b'.storage.read a = b.storage.read a) ∧
    (∀ src, exec (.write src) s = .next t →
      t.config = s.config ∧ t.owner = s.owner ∧ b'.readIndex = b.readIndex ∧ b'.readEpoch = b.readEpoch ∧
      ∀ a, (∀ k, k < src.length → (b.writeIndex + k) % s.config.capacity ≠ a) →
        b'.storage.read a = b.storage.read a)

/-- What the popping commands leave unchanged: parameters, owner, the write pointer (zeroed by DRAIN alone), and all of the
storage. -/
def Obligations.PoppingCommandsFrame : Prop :=
  ∀ (s t : State) (b b' : Buffer), s.block = .live b → t.block = .live b' →
    (exec .next s = .next t ∨ (∃ n, exec (.read n) s = .next t) →
      t.config = s.config ∧ t.owner = s.owner ∧ b'.writeIndex = b.writeIndex ∧ b'.writeEpoch = b.writeEpoch ∧
      b'.storage = b.storage) ∧
    (exec .clear s = .next t ∨ exec .drain s = .next t →
      t.config = s.config ∧ t.owner = s.owner ∧ b'.storage = b.storage ∧
      b'.writeIndex = 0 ∧ b'.readIndex = 0 ∧ b'.writeEpoch = 0 ∧ b'.readEpoch = 0)

/-- A slot's content changes by PUSH and WRITE alone, short of a CONSTRUCT (`spec/20_memory.md` R50 and section 8): every
other command and every other event leaves the whole storage as it was. -/
def Obligations.OnlyPushesChangeStorage : Prop :=
  ∀ (i : Instr) (s t : State) (b b' : Buffer), s.block = .live b → exec i s = .next t → t.block = .live b' →
    b'.storage ≠ b.storage → i = .construct ∨ (∃ v, i = .push v) ∨ ∃ src, i = .write src

/-- The write side does not look at the read side at all (`spec/10_state.md` R22): on two instances that differ in the read
pointer alone, PUSH and WRITE leave the same write pointer and the same storage, and each read pointer as it was. -/
def Obligations.WriteSideIgnoresReadSide : Prop :=
  ∀ (i : Instr) (s t : State) (b b' : Buffer) (ri re : Nat), (∃ v, i = .push v) ∨ (∃ src, i = .write src) →
    s.block = .live b → exec i s = .next t → t.block = .live b' →
    exec i (s.withBlock (.live { b with readIndex := ri, readEpoch := re })) =
      .next (t.withBlock (.live { b' with readIndex := ri, readEpoch := re }))

/-- No command and no event changes the parameters: `CAPACITY` is "immutable after construction" (`spec/00_scope.md`
section 4). -/
def Obligations.ParametersNeverChange : Prop :=
  ∀ s t : State, step s = .next t → t.config = s.config

/-! Storage. -/

/-- `spec/00_scope.md` R12: MemRead returns the slot's content; MemWrite replaces it and changes no other slot; the
addresses are `0 .. CAPACITY-1`. -/
def Obligations.StorageReadsWhatWasWritten : Prop :=
  ∀ (c : Config) (m : Memory) (i : Nat) (v : Slot), i < c.capacity →
    memRead (memWrite c m i v) i = .ok v ∧ ∀ j, j ≠ i → memRead (memWrite c m i v) j = memRead m j

/-- The canonical form: a write keeps it, and two storages in it that read alike are equal. -/
def Obligations.StorageFormIsCanonical : Prop :=
  (∀ (m : Memory) (i : Nat) (v : Slot), m.wf = true → (m.write i v).wf = true) ∧
  (∀ m m' : Memory, m.wf = true → m'.wf = true → (∀ i, m.read i = m'.read i) → m = m')

/-! Encoding and the step. -/

/-- `spec/30_encoding.md` R63 and R69, as words: the seven rows of the opcode table. -/
def Obligations.OperationCodesDecode : Prop :=
  decodeTableWord 1 1 = some .construct ∧
  decodeTableWord 8 0b001 = some (.push (Slot.zero 8)) ∧ decodeTableWord 8 0b010 = some .next ∧
  decodeTableWord 8 0b011 = some .clear ∧ decodeTableWord 8 0b100 = some .drain ∧
  decodeTableWord 8 0b101 = some (.read 0) ∧ decodeTableWord 8 0b110 = some (.write []) ∧
  decodeTableWord 8 0b000 = none ∧ decodeTableWord 8 0b111 = none

/-- `spec/30_encoding.md` R64: a reserved code is refused. -/
def Obligations.ReservedCodesRefused : Prop :=
  ∀ (s : State) (p : Ports) (rest : List OwnerEvent), s.owner = .drive p :: rest → p.rst = false → p.cmdValid = true →
    p.cmdOp = 0b000#3 ∨ p.cmdOp = 0b111#3 → step s = .refused (.undecodable (.reservedCode p.cmdOp))

/-- Decode and encode agree, both ways: an operation's own port sample spells it, what a sample spells can be presented on
that instance, and two samples that spell one operation agree on `rst`, or on the code and the ports it names. -/
def Obligations.DecodeEncodeAgree : Prop :=
  (∀ (c : Config) (i : Instr), i.wellFormed c = true → decode c (encode c i) = .ok i) ∧
  (∀ (c : Config) (p : Ports) (i : Instr), decode c p = .ok i →
    i.wellFormed c = true ∧ p.rst = (encode c i).rst ∧
    (i ≠ .construct → p.cmdValid = true ∧ p.cmdOp = (encode c i).cmdOp) ∧
    (∀ v, i = .push v → p.cmdData = v) ∧ (∀ n, i = .read n → p.cmdLen = n) ∧
    (∀ src, i = .write src → p.src = src ∧ p.cmdLen = src.length))

/-- A step runs the operation the owner's next port sample spells: that event is taken off the owner's list, `exec` does the
rest, and its outcome is the step's, but for `ConstructionFailure`, which the step takes (log entry 5). -/
def Obligations.StepRunsTheDecodedCommand : Prop :=
  ∀ (s : State) (p : Ports) (rest : List OwnerEvent) (i : Instr), s.owner = .drive p :: rest →
    decode s.config p = .ok i →
    (∀ t, exec i (s.withOwner rest) = .next t → step s = .next t) ∧
    (∀ r, exec i (s.withOwner rest) = .refused r → step s = .refused r) ∧
    (∀ k, exec i (s.withOwner rest) = .fault (.valuelessSlot k) → step s = .fault (.valuelessSlot k)) ∧
    (∀ f, exec i (s.withOwner rest) = .fault (.constructionFailure f) →
      step s = .next ((s.withOwner rest).restart (.failed f)))

/-- The block holds its state while no command is presented (`spec/60_exceptions.md` section 6). -/
def Obligations.IdleStepHoldsTheState : Prop :=
  ∀ s : State,
    (s.owner = [] → step s = .next s) ∧
    (∀ (p : Ports) (rest : List OwnerEvent), s.owner = .drive p :: rest → p.rst = false → p.cmdValid = false →
      step s = .next (s.withOwner rest))

/-- `rst` asserted together with a command performs CONSTRUCT, and the command is not accepted (`spec/60_exceptions.md`
section 3). `settle` is how every step ends: it takes CONSTRUCT's fault (log entry 5). -/
def Obligations.ResetWinsOverCommand : Prop :=
  ∀ (s : State) (p : Ports) (rest : List OwnerEvent), s.owner = .drive p :: rest → p.rst = true →
    step s = settle (s.withOwner rest) (exec .construct (s.withOwner rest))

/-! Invariants. -/

/-- The invariant holds right after reset. -/
def Obligations.InvariantAtReset : Prop := State.reset.Inv

/-- Every step keeps the invariant: register ranges (`spec/10_state.md` section 9), canonical storage of the instance's own
slots, the counters of section 6, and what a `Failed` instance recorded. -/
def Obligations.StepKeepsInvariant : Prop :=
  ∀ s t : State, s.Inv → step s = .next t → t.Inv

/-- No run from a state that meets the invariant ends in a fault, so no slot without a value is read, and in every state of one
both address generators are in range, so no access is out of range (`spec/10_state.md` section 6 and `spec/20_memory.md` section
1, the spec's inference). `ConstructionFailure` does not end a run: a step takes it (log entry 5). -/
def Obligations.SoundStatesNeverFault : Prop :=
  ∀ (s : State) (k : Nat), s.Inv →
    (∀ e : Fault, Host.Core.run core k s ≠ .fault e) ∧
    (∀ (t : State) (b : Buffer), Host.Core.run core k s = .next t → t.block = .live b →
      b.writeIndex < t.config.capacity ∧ (catchUp t.config b).readIndex < t.config.capacity)

/-- "No other operation fails" (`spec/60_exceptions.md` R113): on a sound `Live` instance every operation that can be presented
completes and leaves a sound `Live` instance. -/
def Obligations.EveryCommandCompletes : Prop :=
  ∀ (i : Instr) (s : State), s.Inv → s.status = .live → i.wellFormed s.config = true →
    ∃ t, exec i s = .next t ∧ t.status = .live ∧ t.Inv

/-- A run of any length ends well while the owner presents well-formed operations and nothing else
(`spec/70_reset_and_hazards.md` section 3). -/
def Obligations.WellFormedProgramsRun : Prop :=
  ∀ (s : State) (k : Nat), s.Inv → s.status = .live →
    (∀ e ∈ s.owner, ∃ i : Instr, i.wellFormed s.config = true ∧ e = .drive (encode s.config i)) → SafeRun k s

/-! The envelope. -/

/-- Inside the envelope the block is a first-in first-out queue that drops its oldest element on overflow (`spec/42_next.md`
and `spec/70_reset_and_hazards.md` section 4, the spec's inference): NEXT returns the ideal queue's head, and EMPTY, FULL,
OVERRUN and `pending` say of that queue what the spec says they do. -/
def Obligations.EnvelopeIsBoundedQueue : Prop :=
  ∀ (s : State) (b : Buffer) (q : List Slot), legalParameters s.config = true → legalCapacity s.config = true →
    s.block = .live b → InEnvelope s.config b q →
    (∃ b', exec .next s = .next (s.complete b' (.opt q.head?)) ∧ InEnvelope s.config b' q.tail) ∧
    (isEmpty b = true ↔ q = []) ∧
    q.length = min (pending s.config b) s.config.capacity ∧ pending s.config b ≤ 2 * s.config.capacity - 1 ∧
    (isOverrun s.config b = true ↔ s.config.capacity < pending s.config b)

/-- The composites inside the envelope (`spec/43_clear_drain.md` section DRAIN and `spec/44_bulk.md` section READ, the spec's
inference): DRAIN returns the ideal queue's elements, oldest first, and READ the oldest `min(N, a)` of the `a` surviving
bytes. -/
def Obligations.EnvelopeDrainAndReadYieldTheQueue : Prop :=
  ∀ (s : State) (b : Buffer) (q : List Slot), legalParameters s.config = true → legalCapacity s.config = true →
    s.block = .live b → InEnvelope s.config b q →
    (∃ b', exec .drain s = .next (s.complete b' (.seq q)) ∧ InEnvelope s.config b' []) ∧
    (∀ n, Instr.wellFormed s.config (.read n) = true →
      ∃ b', exec (.read n) s = .next (s.complete b' (.bytes (min n q.length) ((q.take n).map slotByte))) ∧
        InEnvelope s.config b' (q.drop n))

/-- Pushing `CAPACITY + k` values (`k < CAPACITY`), or fewer, into a cleared buffer and draining yields exactly the last
`CAPACITY` of them, oldest first (`spec/43_clear_drain.md` section DRAIN, the source's own property). -/
def Obligations.LastCapacityValuesSurvive : Prop :=
  ∀ (c : Config) (b : Buffer) (vs : List Slot), legalParameters c = true → legalCapacity c = true → storageLegal c b →
    (∀ v ∈ vs, slotFits c v = true) → vs.length < 2 * c.capacity →
    ∃ b', drainSlots c (pushAll c vs (zeroCursors b)) = .ok (b', vs.drop (vs.length - c.capacity))

/-- How an owner stays inside the envelope (`spec/70_reset_and_hazards.md` section 4, item (a), the spec's inference): an owner
that keeps `pending` at most `CAPACITY` by not pushing while FULL stays inside, never overwrites and never sees OVERRUN. -/
def Obligations.NotPushingWhileFullStaysInside : Prop :=
  ∀ (c : Config) (b b' : Buffer) (q : List Slot) (v : Slot), legalParameters c = true → legalCapacity c = true →
    InEnvelope c b q → pending c b ≤ c.capacity → isFull c b = false → slotFits c v = true → b' = pushSlot c v b →
    InEnvelope c b' (q ++ [v]) ∧ pending c b' ≤ c.capacity ∧ isOverrun c b' = false
end

