-- ==== Sys2Proof/Laws/Memory.lean ====
section
/-! SUPPORT. Storage: read after write, and that a write keeps the canonical form. -/

namespace Sys2Proof.Machine

theorem Memory.read_write_same (m : Memory) (i : Nat) (v : Slot) : (m.write i v).read i = some v := by
  induction m with
  | nil => simp [Memory.write, Memory.read]
  | cons cell rest ih =>
    obtain ⟨j, w⟩ := cell
    unfold Memory.write
    split
    · simp [Memory.read]
    · split
      · simp [Memory.read]
      · rename_i _ hne
        simp [Memory.read, Ne.symm hne, ih]

theorem Memory.read_write_other (m : Memory) {i k : Nat} (v : Slot) (h : k ≠ i) :
    (m.write i v).read k = m.read k := by
  induction m with
  | nil => simp [Memory.write, Memory.read, h.symm]
  | cons cell rest ih =>
    obtain ⟨j, w⟩ := cell
    unfold Memory.write
    split
    · simp [Memory.read, h.symm]
    · split
      · subst_vars; simp [Memory.read, h.symm]
      · simp [Memory.read, ih]

theorem Memory.read_write (m : Memory) (i k : Nat) (v : Slot) :
    (m.write i v).read k = if k = i then some v else m.read k := by
  split
  · subst_vars; exact m.read_write_same _ v
  · exact m.read_write_other v ‹_›

/-- The head of a list in canonical form lies below the rest. -/
theorem Memory.wf_cons {j : Nat} {w : Slot} {m : Memory} :
    Memory.wf ((j, w) :: m) = true ↔ (∀ cell ∈ m.head?, j < cell.1) ∧ m.wf = true := by
  cases m with
  | nil => simp [Memory.wf]
  | cons cell rest => obtain ⟨k, u⟩ := cell; simp [Memory.wf]

theorem Memory.write_head (m : Memory) (i : Nat) (v : Slot) :
    ∀ cell ∈ (m.write i v).head?, cell.1 = i ∨ ∃ old ∈ m.head?, cell.1 = old.1 := by
  cases m with
  | nil => simp [Memory.write]
  | cons cell rest =>
    obtain ⟨j, w⟩ := cell
    unfold Memory.write
    split
    · simp
    · split <;> simp

theorem Memory.wf_write {m : Memory} (i : Nat) (v : Slot) (h : m.wf = true) : (m.write i v).wf = true := by
  induction m with
  | nil => rfl
  | cons cell rest ih =>
    obtain ⟨j, w⟩ := cell
    obtain ⟨hj, hrest⟩ := Memory.wf_cons.1 h
    unfold Memory.write
    split
    · exact Memory.wf_cons.2 ⟨by simpa, h⟩
    · split
      · subst_vars; exact Memory.wf_cons.2 ⟨hj, hrest⟩
      · refine Memory.wf_cons.2 ⟨fun cell hc => ?_, ih hrest⟩
        rcases Memory.write_head rest i v cell hc with h1 | ⟨old, ho, h1⟩
        · omega
        · have := hj old ho; omega

/-- A cell of the storage after a write is the written one or one that was there. -/
theorem Memory.mem_write {m : Memory} {i : Nat} {v : Slot} {cell : Nat × Slot} (h : cell ∈ m.write i v) :
    cell = (i, v) ∨ cell ∈ m := by
  induction m with
  | nil => simpa [Memory.write] using h
  | cons x rest ih =>
    obtain ⟨j, w⟩ := x
    unfold Memory.write at h
    split at h
    · simpa using h
    · split at h
      · simp only [List.mem_cons] at h ⊢
        tauto
      · simp only [List.mem_cons] at h ⊢
        rcases h with h | h
        · exact .inr (.inl h)
        · rcases ih h with h | h
          · exact .inl h
          · exact .inr (.inr h)

theorem Memory.read_mem {m : Memory} {i : Nat} {v : Slot} (h : m.read i = some v) : (i, v) ∈ m := by
  induction m with
  | nil => simp [Memory.read] at h
  | cons cell rest ih =>
    obtain ⟨j, w⟩ := cell
    unfold Memory.read at h
    split at h
    · simp_all
    · exact List.mem_cons_of_mem _ (ih h)

theorem memRead_ok {m : Memory} {i : Nat} {v : Slot} : memRead m i = .ok v ↔ m.read i = some v := by
  unfold memRead
  cases m.read i <;> simp

theorem memRead_error {m : Memory} {i : Nat} {e : Fault} (h : memRead m i = .error e) : e = .valuelessSlot i := by
  unfold memRead at h
  split at h <;> cases h
  rfl

/-- On an index that names a slot. -/
theorem memWrite_of_lt {c : Config} {i : Nat} (m : Memory) (v : Slot) (h : i < c.capacity) :
    memWrite c m i v = m.write i v := if_pos h

theorem memWrite_read_other {c : Config} (m : Memory) {i k : Nat} (v : Slot) (h : k ≠ i) :
    (memWrite c m i v).read k = m.read k := by
  unfold memWrite
  split
  · exact Memory.read_write_other m v h
  · rfl

theorem memWrite_wf {c : Config} {m : Memory} (i : Nat) (v : Slot) (h : m.wf = true) : (memWrite c m i v).wf = true := by
  unfold memWrite
  split
  · exact Memory.wf_write i v h
  · exact h

theorem reset_storage_wf : Buffer.fresh.storage.wf = true := rfl

end Sys2Proof.Machine
end

