-- ==== Sys2Proof/Laws/Pointers.lean ====
section
/-! SUPPORT. Pointer arithmetic: one small lemma for each fact the pointer functions are used for. -/

namespace Sys2Proof.Machine

variable {c : Config} {i e n : Nat}

theorem epochs_pos (c : Config) : 0 < epochs c := Nat.two_pow_pos _

theorem nextIndex_lt (h : 0 < c.capacity) : nextIndex c i < c.capacity := Nat.mod_lt _ h

theorem incEpoch_lt : incEpoch c e < epochs c := Nat.mod_lt _ (epochs_pos c)

theorem nextIndex_of_lt (h : i < c.capacity) :
    nextIndex c i = if i = c.capacity - 1 then 0 else i + 1 := by
  unfold nextIndex
  split
  · rw [show i + 1 = c.capacity by omega, Nat.mod_self]
  · exact Nat.mod_eq_of_lt (by omega)

theorem wraps_iff (h : i < c.capacity) : wraps c i = true ↔ i = c.capacity - 1 := by
  simp only [wraps, nextIndex_of_lt h, beq_iff_eq]
  split <;> simp_all

/-- One advance of an index that counts `n` modulo `CAPACITY` counts `n + 1`. -/
theorem nextIndex_count : nextIndex c (n % c.capacity) = (n + 1) % c.capacity := by
  simp [nextIndex, Nat.add_mod]

/-- One advance of an epoch that counts the wraps of `n` counts those of `n + 1`. -/
theorem epoch_count :
    (if wraps c (n % c.capacity) then incEpoch c (n / c.capacity % epochs c) else n / c.capacity % epochs c) =
      (n + 1) / c.capacity % epochs c := by
  simp only [wraps, nextIndex_count, beq_iff_eq, Nat.succ_div, Nat.dvd_iff_mod_eq_zero, incEpoch]
  split <;> simp [Nat.add_mod]

theorem epochGap_lt {r w : Nat} : epochGap c r w < epochs c := Nat.mod_lt _ (epochs_pos c)

/-- The difference of two legal epochs, without the modulus. -/
theorem epochGap_of_lt {r w : Nat} (hr : r < epochs c) (hw : w < epochs c) :
    epochGap c r w = if r ≤ w then w - r else w + epochs c - r := by
  unfold epochGap
  rw [Nat.mod_eq_of_lt hr]
  split
  · rw [show w + (epochs c - r) = (w - r) + epochs c by omega, Nat.add_mod_right]
    exact Nat.mod_eq_of_lt (by omega)
  · rw [Nat.mod_eq_of_lt (by omega)]
    omega

theorem epochGap_self : epochGap c e e = 0 := by
  have h := epochs_pos c
  have hlt := Nat.mod_lt e h
  have hdiv := Nat.div_add_mod e (epochs c)
  unfold epochGap
  rw [show e + (epochs c - e % epochs c) = epochs c * (e / epochs c + 1) by rw [Nat.mul_add]; omega]
  exact Nat.mul_mod_right _ _

theorem behind_ne {r w : Nat} (h : behind c r w = true) : r ≠ w := by
  rintro rfl
  simp [behind, epochGap_self] at h

theorem isOverrun_lt {b : Buffer} (h : isOverrun c b = true) : b.readIndex < b.writeIndex := by
  simp only [isOverrun, Bool.and_eq_true, decide_eq_true_eq] at h
  exact h.2

theorem isOverrun_behind {b : Buffer} (h : isOverrun c b = true) : behind c b.readEpoch b.writeEpoch = true := by
  simp only [isOverrun, Bool.and_eq_true] at h
  exact h.1

theorem epochs_ge (h : legalParameters c = true) : 4 ≤ epochs c := by
  have h2 : 2 ≤ c.epochBits := by
    simp only [legalParameters, Bool.and_eq_true, decide_eq_true_eq] at h
    exact h.1.2
  exact Nat.pow_le_pow_right (n := 2) (by omega) h2

/-- `2^(EPOCH_BITS-1)` is half of the epoch range. -/
theorem epochs_half (h : legalParameters c = true) : epochs c = 2 * 2 ^ (c.epochBits - 1) := by
  have h2 : 2 ≤ c.epochBits := by
    simp only [legalParameters, Bool.and_eq_true, decide_eq_true_eq] at h
    exact h.1.2
  unfold epochs
  rw [← Nat.pow_succ', show (c.epochBits - 1).succ = c.epochBits by omega]

theorem isFull_iff {b : Buffer} :
    isFull c b = true ↔ b.readIndex = b.writeIndex ∧ epochGap c b.readEpoch b.writeEpoch = 1 := by
  simp [isFull]

theorem writePosition_lt {b : Buffer} (h : registersLegal c b) : writePosition c b < positions c := by
  obtain ⟨hwi, -, hwe, -⟩ := h
  have := Nat.mul_le_mul_right c.capacity (Nat.succ_le_of_lt hwe)
  unfold writePosition positions
  rw [Nat.succ_mul] at this
  omega

theorem readPosition_lt {b : Buffer} (h : registersLegal c b) : readPosition c b < positions c := by
  obtain ⟨-, hri, -, hre⟩ := h
  have := Nat.mul_le_mul_right c.capacity (Nat.succ_le_of_lt hre)
  unfold readPosition positions
  rw [Nat.succ_mul] at this
  omega

theorem positions_pos {b : Buffer} (h : registersLegal c b) : 0 < positions c :=
  Nat.lt_of_le_of_lt (Nat.zero_le _) (writePosition_lt h)

theorem pending_lt {b : Buffer} (h : registersLegal c b) : pending c b < positions c :=
  Nat.mod_lt _ (positions_pos h)

/-- `pending` without the modulus. -/
theorem pending_of_legal {b : Buffer} (h : registersLegal c b) :
    pending c b =
      if readPosition c b ≤ writePosition c b then writePosition c b - readPosition c b
      else writePosition c b + positions c - readPosition c b := by
  have hw := writePosition_lt h
  have hr := readPosition_lt h
  unfold pending
  rw [Nat.mod_eq_of_lt hr]
  split
  · rw [show writePosition c b + (positions c - readPosition c b) =
      (writePosition c b - readPosition c b) + positions c by omega, Nat.add_mod_right]
    exact Nat.mod_eq_of_lt (by omega)
  · rw [Nat.mod_eq_of_lt (by omega)]
    omega

/-- `pending` by the epoch difference and the indices. Its last case, epochs equal and the reader past the writer, is the
one that an epoch-counter alias leads to. -/
theorem pending_by_gap {b : Buffer} (h : registersLegal c b) :
    (epochGap c b.readEpoch b.writeEpoch * c.capacity + b.writeIndex = pending c b + b.readIndex) ∨
    (epochGap c b.readEpoch b.writeEpoch = 0 ∧ b.writeIndex < b.readIndex ∧
      positions c + b.writeIndex = pending c b + b.readIndex) := by
  rw [pending_of_legal h]
  obtain ⟨hwi, hri, hwe, hre⟩ := h
  rw [epochGap_of_lt hre hwe]
  unfold writePosition readPosition positions
  rcases Nat.lt_trichotomy b.readEpoch b.writeEpoch with hlt | heq | hgt
  · obtain ⟨d, hd⟩ := Nat.exists_eq_add_of_lt hlt
    rw [if_pos (by omega), show b.writeEpoch - b.readEpoch = d + 1 by omega, hd]
    have h1 : (b.readEpoch + d + 1) * c.capacity = b.readEpoch * c.capacity + (d + 1) * c.capacity := by ring
    have h2 : c.capacity ≤ (d + 1) * c.capacity := Nat.le_mul_of_pos_left _ (by omega)
    rw [h1]
    left
    rw [if_pos (by omega)]
    omega
  · rw [if_pos (by omega), heq, Nat.sub_self, Nat.zero_mul]
    by_cases hi : b.readIndex ≤ b.writeIndex
    · left; rw [if_pos (by omega)]; omega
    · right; rw [if_neg (by omega)]
      refine ⟨rfl, by omega, ?_⟩
      have := Nat.mul_le_mul_right c.capacity (Nat.succ_le_of_lt hwe)
      rw [Nat.succ_mul] at this
      omega
  · obtain ⟨d, hd⟩ := Nat.exists_eq_add_of_lt hgt
    have hN : d + 1 < epochs c := by omega
    obtain ⟨k, hk⟩ := Nat.exists_eq_add_of_lt hN
    rw [if_neg (by omega), show b.writeEpoch + epochs c - b.readEpoch = k + 1 by omega]
    have h1 : b.readEpoch * c.capacity = b.writeEpoch * c.capacity + (d + 1) * c.capacity := by rw [hd]; ring
    have h2 : epochs c * c.capacity = (d + 1) * c.capacity + (k + 1) * c.capacity := by rw [hk]; ring
    have h3 : c.capacity ≤ (d + 1) * c.capacity := Nat.le_mul_of_pos_left _ (by omega)
    have h4 : c.capacity ≤ (k + 1) * c.capacity := Nat.le_mul_of_pos_left _ (by omega)
    left
    rw [if_neg (by omega)]
    omega

theorem isEmpty_eq_true {b : Buffer} :
    isEmpty b = true ↔ b.readIndex = b.writeIndex ∧ b.readEpoch = b.writeEpoch := by
  simp [isEmpty]

end Sys2Proof.Machine
end

