-- ==== Sys2Proof/Laws/State.lean ====
section
/-! SUPPORT. One lemma per field per update of the state and of the buffer, and one per case of `onLive`. -/

namespace Sys2Proof.Machine

variable (s : State) (f : ConstructionFailure) (b : Buffer) (c : Config) (x : Lifecycle) (o : List OwnerEvent) (r : Result)

@[simp] theorem State.withBlock_config : (s.withBlock x).config = s.config := rfl
@[simp] theorem State.withBlock_block : (s.withBlock x).block = x := rfl
@[simp] theorem State.withBlock_owner : (s.withBlock x).owner = s.owner := rfl
@[simp] theorem State.withBlock_result : (s.withBlock x).result = s.result := rfl

@[simp] theorem State.withOwner_config : (s.withOwner o).config = s.config := rfl
@[simp] theorem State.withOwner_block : (s.withOwner o).block = s.block := rfl
@[simp] theorem State.withOwner_owner : (s.withOwner o).owner = o := rfl
@[simp] theorem State.withOwner_result : (s.withOwner o).result = s.result := rfl
@[simp] theorem State.withOwner_status : (s.withOwner o).status = s.status := rfl

@[simp] theorem State.complete_config : (s.complete b r).config = s.config := rfl
@[simp] theorem State.complete_block : (s.complete b r).block = .live b := rfl
@[simp] theorem State.complete_owner : (s.complete b r).owner = s.owner := rfl
@[simp] theorem State.complete_result : (s.complete b r).result = some r := rfl
@[simp] theorem State.complete_status : (s.complete b r).status = .live := rfl

@[simp] theorem State.restart_config : (s.restart x).config = s.config := rfl
@[simp] theorem State.restart_block : (s.restart x).block = x := rfl
@[simp] theorem State.restart_owner : (s.restart x).owner = s.owner := rfl
@[simp] theorem State.restart_result : (s.restart x).result = none := rfl

@[simp] theorem takeConstructionFailure_config : (takeConstructionFailure f s).config = s.config := rfl
@[simp] theorem takeConstructionFailure_block : (takeConstructionFailure f s).block = .failed f := rfl
@[simp] theorem takeConstructionFailure_owner : (takeConstructionFailure f s).owner = s.owner := rfl
@[simp] theorem takeConstructionFailure_result : (takeConstructionFailure f s).result = none := rfl
@[simp] theorem takeConstructionFailure_status : (takeConstructionFailure f s).status = .failed := rfl

@[simp] theorem settle_next (t : State) : settle s (.next t) = .next t := rfl
@[simp] theorem settle_refused (q : Refusal) : settle s (.refused q) = .refused q := rfl
@[simp] theorem settle_constructionFailure :
    settle s (.fault (.constructionFailure f)) = .next (takeConstructionFailure f s) := rfl
@[simp] theorem settle_valuelessSlot (i : Nat) :
    settle s (.fault (.valuelessSlot i)) = .fault (.valuelessSlot i) := rfl

@[simp] theorem advanceWrite_writeIndex : (advanceWrite c b).writeIndex = nextIndex c b.writeIndex := rfl
@[simp] theorem advanceWrite_writeEpoch : (advanceWrite c b).writeEpoch =
    if wraps c b.writeIndex then incEpoch c b.writeEpoch else b.writeEpoch := rfl
@[simp] theorem advanceWrite_readIndex : (advanceWrite c b).readIndex = b.readIndex := rfl
@[simp] theorem advanceWrite_readEpoch : (advanceWrite c b).readEpoch = b.readEpoch := rfl
@[simp] theorem advanceWrite_storage : (advanceWrite c b).storage = b.storage := rfl

@[simp] theorem advanceRead_writeIndex : (advanceRead c b).writeIndex = b.writeIndex := rfl
@[simp] theorem advanceRead_writeEpoch : (advanceRead c b).writeEpoch = b.writeEpoch := rfl
@[simp] theorem advanceRead_readIndex : (advanceRead c b).readIndex = nextIndex c b.readIndex := rfl
@[simp] theorem advanceRead_readEpoch : (advanceRead c b).readEpoch =
    if wraps c b.readIndex then incEpoch c b.readEpoch else b.readEpoch := rfl
@[simp] theorem advanceRead_storage : (advanceRead c b).storage = b.storage := rfl

@[simp] theorem catchUp_writeIndex : (catchUp c b).writeIndex = b.writeIndex := by unfold catchUp; split <;> rfl
@[simp] theorem catchUp_writeEpoch : (catchUp c b).writeEpoch = b.writeEpoch := by unfold catchUp; split <;> rfl
@[simp] theorem catchUp_readEpoch : (catchUp c b).readEpoch = b.readEpoch := by unfold catchUp; split <;> rfl
@[simp] theorem catchUp_storage : (catchUp c b).storage = b.storage := by unfold catchUp; split <;> rfl

theorem catchUp_readIndex :
    (catchUp c b).readIndex = if isOverrun c b then b.writeIndex else b.readIndex := by
  unfold catchUp; split <;> simp_all

@[simp] theorem zeroCursors_writeIndex : (zeroCursors b).writeIndex = 0 := rfl
@[simp] theorem zeroCursors_readIndex : (zeroCursors b).readIndex = 0 := rfl
@[simp] theorem zeroCursors_writeEpoch : (zeroCursors b).writeEpoch = 0 := rfl
@[simp] theorem zeroCursors_readEpoch : (zeroCursors b).readEpoch = 0 := rfl
@[simp] theorem zeroCursors_storage : (zeroCursors b).storage = b.storage := rfl

@[simp] theorem reset_block : State.reset.block = .live Buffer.fresh := rfl
@[simp] theorem reset_owner : State.reset.owner = [] := rfl

variable {s b} {f : Buffer → Except Fault (Buffer × Result)}

/-- A settled outcome is a next state only where the operation answered it or raised `ConstructionFailure`. -/
theorem settle_eq_next {t : State} {o : Host.Outcome State Fault Refusal} (h : settle s o = .next t) :
    o = .next t ∨ ∃ f, o = .fault (.constructionFailure f) ∧ t = takeConstructionFailure f s := by
  unfold settle at h
  split at h <;> cases h
  · exact .inl rfl
  · exact .inr ⟨_, rfl, rfl⟩

theorem settle_eq_fault {e : Fault} {o : Host.Outcome State Fault Refusal} (h : settle s o = .fault e) :
    o = .fault e ∧ ∃ i, e = .valuelessSlot i := by
  unfold settle at h
  split at h <;> cases h
  exact ⟨rfl, _, rfl⟩

theorem status_live (h : s.status = .live) : ∃ b, s.block = .live b := by
  unfold State.status at h
  split at h <;> simp_all

@[simp] theorem finish_ok : finish s (.ok (b, r)) = .next (s.complete b r) := rfl
@[simp] theorem finish_error (e : Fault) : finish s (.error e) = .fault e := rfl

theorem onLive_live (h : s.block = .live b) : onLive s f = finish s (f b) := by
  simp [onLive, h]

/-- All that a command on the buffer can do: it answers a next state only on a `Live` instance, and then the state is the
buffer the command left, with the command's result, and nothing else changed. -/
theorem onLive_next {t : State} (h : onLive s f = .next t) :
    ∃ b b' r, s.block = .live b ∧ f b = .ok (b', r) ∧ t = s.complete b' r := by
  unfold onLive at h
  split at h
  · cases h
  · cases h
  · rename_i b hb
    unfold finish at h
    split at h <;> rename_i hf <;> cases h
    exact ⟨b, _, _, hb, hf, rfl⟩

theorem onLive_fault {e : Fault} (h : onLive s f = .fault e) : ∃ b, s.block = .live b ∧ f b = .error e := by
  unfold onLive at h
  split at h
  · cases h
  · cases h
  · rename_i b hb
    unfold finish at h
    split at h <;> rename_i hf <;> cases h
    exact ⟨b, hb, hf⟩

theorem onLive_refused {q : Refusal} (h : onLive s f = .refused q) : s.status ≠ .live := by
  unfold onLive at h
  unfold State.status
  split at h <;> rename_i hb
  · simp [hb]
  · simp [hb]
  · unfold finish at h
    split at h <;> cases h

end Sys2Proof.Machine
end

