-- ==== Sys2Proof/Laws/Buffer.lean ====
section
/-! SUPPORT. Everything PUSH, NEXT and their repetitions can do to a buffer, and that each keeps a sound buffer sound. -/

namespace Sys2Proof.Machine

variable {c : Config} {b b' : Buffer} {v : Slot}

@[simp] theorem pushSlot_writeIndex : (pushSlot c v b).writeIndex = nextIndex c b.writeIndex := rfl
@[simp] theorem pushSlot_writeEpoch : (pushSlot c v b).writeEpoch =
    if wraps c b.writeIndex then incEpoch c b.writeEpoch else b.writeEpoch := rfl
@[simp] theorem pushSlot_readIndex : (pushSlot c v b).readIndex = b.readIndex := rfl
@[simp] theorem pushSlot_readEpoch : (pushSlot c v b).readEpoch = b.readEpoch := rfl
theorem pushSlot_storage : (pushSlot c v b).storage = memWrite c b.storage b.writeIndex v := rfl

/-- All that PUSH does, with `write_index` in range. -/
theorem pushSlot_of_lt (h : b.writeIndex < c.capacity) :
    pushSlot c v b = advanceWrite c { b with storage := b.storage.write b.writeIndex v } := by
  rw [pushSlot, memWrite_of_lt _ _ h]

/-- All that NEXT can do. -/
theorem popSlot_ok {r : Option Slot} : popSlot c b = .ok (b', r) ↔
    (isEmpty b = true ∧ b' = b ∧ r = none) ∨
    (isEmpty b = false ∧ b' = advanceRead c (catchUp c b) ∧
      ∃ w, b.storage.read (catchUp c b).readIndex = some w ∧ r = some w) := by
  unfold popSlot
  by_cases he : isEmpty b = true
  · simp [he, eq_comm]
  · cases hm : b.storage.read (catchUp c b).readIndex <;> simp [he, memRead, hm, eq_comm]

/-- NEXT stops only in the safety net, and so does its repetition. -/
theorem popSlot_error {e : Fault} (h : popSlot c b = .error e) : ∃ i, e = .valuelessSlot i := by
  unfold popSlot at h
  split at h
  · cases h
  · simp only at h
    split at h <;> rename_i hm <;> cases h
    exact ⟨_, memRead_error hm⟩

theorem popUpTo_error {n : Nat} {e : Fault} (h : popUpTo c n b = .error e) : ∃ i, e = .valuelessSlot i := by
  induction n generalizing b with
  | zero => cases h
  | succ n ih =>
    unfold popUpTo at h
    split at h
    · rename_i hp; cases h; exact popSlot_error hp
    · cases h
    · split at h <;> rename_i hp <;> cases h
      exact ih hp

theorem popSlot_none (h : popSlot c b = .ok (b', none)) : isEmpty b = true ∧ b' = b := by
  rcases popSlot_ok.1 h with ⟨he, hb, -⟩ | ⟨-, -, w, -, hw⟩
  · exact ⟨he, hb⟩
  · cases hw

/-- NEXT leaves the write pointer and the storage alone. -/
theorem popSlot_frame {r : Option Slot} (h : popSlot c b = .ok (b', r)) :
    b'.writeIndex = b.writeIndex ∧ b'.writeEpoch = b.writeEpoch ∧ b'.storage = b.storage := by
  rcases popSlot_ok.1 h with ⟨-, rfl, -⟩ | ⟨-, rfl, -⟩ <;> simp

/-- Repeated NEXT is a row of pops that stopped because it had `n` of them or because the buffer ran empty. -/
theorem popUpTo_ok {n : Nat} {vs : List Slot} : popUpTo c n b = .ok (b', vs) →
    Pops c b vs b' ∧ (vs.length = n ∨ (vs.length < n ∧ isEmpty b' = true)) := by
  induction n generalizing b vs with
  | zero =>
    intro h
    simp only [popUpTo, Except.ok.injEq, Prod.mk.injEq] at h
    obtain ⟨rfl, rfl⟩ := h
    exact ⟨.none _, .inl rfl⟩
  | succ n ih =>
    intro h
    unfold popUpTo at h
    split at h
    · cases h
    · rename_i b1 hpop
      cases h
      obtain ⟨he, rfl⟩ := popSlot_none hpop
      exact ⟨.none _, .inr ⟨by simp, he⟩⟩
    · rename_i b1 v hpop
      split at h
      · cases h
      · rename_i b2 ws hrest
        cases h
        obtain ⟨hp, hstop⟩ := ih hrest
        refine ⟨.more hpop hp, ?_⟩
        rcases hstop with hlen | ⟨hlen, he⟩
        · exact .inl (by simp [hlen])
        · exact .inr ⟨by simpa using hlen, he⟩

theorem Pops.frame {vs : List Slot} (h : Pops c b vs b') :
    b'.writeIndex = b.writeIndex ∧ b'.writeEpoch = b.writeEpoch ∧ b'.storage = b.storage := by
  induction h with
  | none => simp
  | more hpop _ ih =>
    have := popSlot_frame hpop
    simp_all

/-! Soundness. -/

theorem tracedBy_push {p g : Nat} (h : tracedBy c b p g) (hlt : b.writeIndex < c.capacity) :
    tracedBy c (pushSlot c v b) (p + 1) g := by
  obtain ⟨hgp, hwi, hwe, hri, hre, hst⟩ := h
  rw [pushSlot_of_lt hlt]
  refine ⟨by omega, ?_, ?_, by simpa using hri, by simpa using hre, ?_⟩
  · simp only [advanceWrite_writeIndex, hwi, nextIndex_count]
  · simp only [advanceWrite_writeEpoch, hwi, hwe, epoch_count]
  · intro i hi hp
    simp only [advanceWrite_storage, Memory.read_write]
    split
    · rfl
    · refine hst i hi ?_
      have : i ≠ p := by
        rintro rfl
        rw [Nat.mod_eq_of_lt hi] at hwi
        exact absurd hwi.symm ‹_›
      omega

/-- The position a NEXT reads at, counted as `g` counts: past the jump, and before the write position. -/
theorem tracedBy_readPosition {p g : Nat} (h : tracedBy c b p g) (he : isEmpty b = false) :
    ∃ g', g' < p ∧ (catchUp c b).readIndex = g' % c.capacity ∧ b.readEpoch = g' / c.capacity % epochs c := by
  obtain ⟨hgp, hwi, hwe, hri, hre, -⟩ := h
  have hne : g ≠ p := by
    rintro rfl
    have : isEmpty b = true := isEmpty_eq_true.2 ⟨by rw [hri, hwi], by rw [hre, hwe]⟩
    simp [this] at he
  rw [catchUp_readIndex]
  split
  · rename_i ho
    have hdiff : g / c.capacity ≠ p / c.capacity := by
      intro heq
      exact behind_ne (isOverrun_behind ho) (by rw [hre, hwe, heq])
    have hidx := isOverrun_lt ho
    have hc : 0 < c.capacity := by
      rcases Nat.eq_zero_or_pos c.capacity with h0 | h0
      · simp [h0] at hdiff
      · exact h0
    have hlt : p % c.capacity < c.capacity := Nat.mod_lt _ hc
    have hle : g / c.capacity + 1 ≤ p / c.capacity :=
      Nat.lt_of_le_of_ne (Nat.div_le_div_right hgp) hdiff
    refine ⟨c.capacity * (g / c.capacity) + p % c.capacity, ?_, ?_, ?_⟩
    · have h1 := Nat.mul_le_mul_left c.capacity hle
      have h2 := Nat.div_add_mod p c.capacity
      rw [Nat.mul_add] at h1
      omega
    · rw [hwi, Nat.mul_add_mod, Nat.mod_mod]
    · rw [hre, Nat.mul_add_div hc, Nat.div_eq_of_lt hlt, Nat.add_zero]
  · exact ⟨g, by omega, hri, hre⟩

theorem tracedBy_pop {p g : Nat} {r : Option Slot} (h : tracedBy c b p g) (hb : popSlot c b = .ok (b', r)) :
    ∃ g', tracedBy c b' p g' := by
  rcases popSlot_ok.1 hb with ⟨-, rfl, -⟩ | ⟨he, rfl, -⟩
  · exact ⟨g, h⟩
  · obtain ⟨g', hlt, hi, hE⟩ := tracedBy_readPosition h he
    obtain ⟨-, hwi, hwe, -, -, hst⟩ := h
    refine ⟨g' + 1, by omega, by simpa using hwi, by simpa using hwe, ?_, ?_, by simpa using hst⟩
    · simp only [advanceRead_readIndex, hi, nextIndex_count]
    · simp only [advanceRead_readEpoch, hi, catchUp_readEpoch, hE, epoch_count]

/-- A sound buffer's NEXT has a slot of the instance with a value to read (`spec/10_state.md` R34). -/
theorem bufferSound_pop_ok (h : bufferSound c b) : ∃ b' r, popSlot c b = .ok (b', r) := by
  cases he : isEmpty b with
  | true => exact ⟨b, none, popSlot_ok.2 (.inl ⟨he, rfl, rfl⟩)⟩
  | false =>
    obtain ⟨hreg, -, p, g, ht⟩ := h
    obtain ⟨g', hlt, hi, -⟩ := tracedBy_readPosition ht he
    have hc : 0 < c.capacity := Nat.lt_of_le_of_lt (Nat.zero_le _) hreg.1
    have hlt' : (catchUp c b).readIndex < c.capacity := by rw [hi]; exact Nat.mod_lt _ hc
    obtain ⟨w, hw⟩ := Option.isSome_iff_exists.1
      (ht.2.2.2.2.2 _ hlt' (by rw [hi]; exact Nat.lt_of_le_of_lt (Nat.mod_le _ _) hlt))
    exact ⟨_, some w, popSlot_ok.2 (.inr ⟨he, rfl, w, hw, rfl⟩)⟩

theorem bufferSound_push (h : bufferSound c b) (hv : slotFits c v = true) : bufferSound c (pushSlot c v b) := by
  obtain ⟨⟨hwi, hri, hwe, hre⟩, ⟨hwf, hcells⟩, p, g, ht⟩ := h
  have ht' := tracedBy_push (v := v) ht hwi
  rw [pushSlot_of_lt hwi] at ht' ⊢
  refine ⟨⟨nextIndex_lt (by omega), hri, ?_, hre⟩, ⟨Memory.wf_write _ _ hwf, ?_⟩, p + 1, g, ht'⟩
  · simp only [advanceWrite_writeEpoch]
    split
    · exact incEpoch_lt
    · exact hwe
  · intro cell hc
    rcases Memory.mem_write hc with rfl | hc
    · exact ⟨hwi, hv⟩
    · exact hcells cell hc

theorem bufferSound_pop {r : Option Slot} (h : bufferSound c b) (hb : popSlot c b = .ok (b', r)) :
    bufferSound c b' := by
  obtain ⟨⟨hwi, hri, hwe, hre⟩, hst, p, g, ht⟩ := h
  obtain ⟨g', ht'⟩ := tracedBy_pop ht hb
  rcases popSlot_ok.1 hb with ⟨-, rfl, -⟩ | ⟨-, rfl, -⟩
  · exact ⟨⟨hwi, hri, hwe, hre⟩, hst, p, g', ht'⟩
  · refine ⟨⟨by simpa using hwi, nextIndex_lt (by omega), by simpa using hwe, ?_⟩, ?_, p, g', ht'⟩
    · simp only [advanceRead_readEpoch, catchUp_readEpoch]
      split
      · exact incEpoch_lt
      · exact hre
    · simpa [storageLegal] using hst

theorem bufferSound_zero (h : bufferSound c b) : bufferSound c (zeroCursors b) := by
  obtain ⟨⟨hwi, -, hwe, -⟩, hst, -⟩ := h
  have hc : 0 < c.capacity := by omega
  refine ⟨⟨hc, hc, epochs_pos c, epochs_pos c⟩, hst, 0, 0, ?_⟩
  simp [tracedBy]

theorem bufferSound_fresh (hc : 0 < c.capacity) : bufferSound c Buffer.fresh :=
  ⟨⟨hc, hc, epochs_pos c, epochs_pos c⟩, ⟨rfl, by simp [Buffer.fresh]⟩, 0, 0, by simp [tracedBy, Buffer.fresh]⟩

theorem Pops.sound {vs : List Slot} (h : Pops c b vs b') (hs : bufferSound c b) : bufferSound c b' := by
  induction h with
  | none => exact hs
  | more hpop _ ih => exact ih (bufferSound_pop hs hpop)

/-- Repeated NEXT on a sound buffer meets no fault. -/
theorem bufferSound_popUpTo (n : Nat) (h : bufferSound c b) : ∃ b' vs, popUpTo c n b = .ok (b', vs) := by
  induction n generalizing b with
  | zero => exact ⟨b, [], rfl⟩
  | succ n ih =>
    obtain ⟨b1, r, hpop⟩ := bufferSound_pop_ok h
    unfold popUpTo
    rw [hpop]
    cases r with
    | none => exact ⟨b1, [], rfl⟩
    | some v =>
      obtain ⟨b2, ws, hrest⟩ := ih (bufferSound_pop h hpop)
      exact ⟨b2, v :: ws, by simp [hrest]⟩

/-- PUSH of every slot of a list leaves a sound buffer sound. -/
theorem bufferSound_pushAll {vs : List Slot} (h : bufferSound c b) (hv : ∀ v ∈ vs, slotFits c v = true) :
    bufferSound c (pushAll c vs b) := by
  induction vs generalizing b with
  | nil => exact h
  | cons v vs ih => exact ih (bufferSound_push h (hv v (by simp))) (fun w hw => hv w (by simp [hw]))

end Sys2Proof.Machine
end

