-- ==== Sys2Proof/Laws/Exec.lean ====
section
/-! SUPPORT. What each operation can do, one inversion lemma each: if `exec` answers a next state, then it is this one. -/

namespace Sys2Proof.Machine

variable {s t : State}

theorem exec_construct_next (h : exec .construct s = .next t) :
    legalParameters s.config = true ∧ legalCapacity s.config = true ∧ t = s.restart (.live Buffer.fresh) := by
  simp only [exec, execConstruct] at h
  split at h
  · cases h
  · rename_i hp
    split at h <;> rename_i hc <;> cases h
    exact ⟨by simpa using hp, hc, rfl⟩

theorem exec_construct_fault {e : Fault} (h : exec .construct s = .fault e) :
    legalParameters s.config = true ∧ legalCapacity s.config = false ∧
      e = .constructionFailure { code := constructionFailureCode, capacity := s.config.capacity } := by
  simp only [exec, execConstruct] at h
  split at h
  · cases h
  · rename_i hp
    split at h <;> rename_i hc <;> cases h
    exact ⟨by simpa using hp, by simpa using hc, rfl⟩

theorem exec_push_next {v : Slot} (h : exec (.push v) s = .next t) :
    slotFits s.config v = true ∧ ∃ b, s.block = .live b ∧ t = s.complete (pushSlot s.config v b) .unit := by
  simp only [exec, execPush] at h
  split at h
  · rename_i hv
    obtain ⟨b, b', r, hb, hf, rfl⟩ := onLive_next h
    cases hf
    exact ⟨hv, b, hb, rfl⟩
  · cases h

theorem exec_next_next (h : exec .next s = .next t) :
    ∃ b b' v, s.block = .live b ∧ popSlot s.config b = .ok (b', v) ∧ t = s.complete b' (.opt v) := by
  obtain ⟨b, b', r, hb, hf, rfl⟩ := onLive_next h
  split at hf <;> cases hf
  exact ⟨b, _, _, hb, ‹_›, rfl⟩

theorem exec_clear_next (h : exec .clear s = .next t) :
    ∃ b, s.block = .live b ∧ t = s.complete (zeroCursors b) .unit := by
  obtain ⟨b, b', r, hb, hf, rfl⟩ := onLive_next h
  cases hf
  exact ⟨b, hb, rfl⟩

theorem drainSlots_ok {c : Config} {b b' : Buffer} {vs : List Slot} :
    drainSlots c b = .ok (b', vs) ↔ ∃ b1, popUpTo c (positions c) b = .ok (b1, vs) ∧ b' = zeroCursors b1 := by
  unfold drainSlots
  cases popUpTo c (positions c) b with
  | error e => simp
  | ok x => obtain ⟨b1, ws⟩ := x; simp; aesop

theorem exec_drain_next (h : exec .drain s = .next t) :
    ∃ b b1 vs, s.block = .live b ∧ popUpTo s.config (positions s.config) b = .ok (b1, vs) ∧
      t = s.complete (zeroCursors b1) (.seq vs) := by
  obtain ⟨b, b', r, hb, hf, rfl⟩ := onLive_next h
  split at hf <;> cases hf
  obtain ⟨b1, hpop, rfl⟩ := drainSlots_ok.1 ‹_›
  exact ⟨b, b1, _, hb, hpop, rfl⟩

theorem exec_read_next {n : Nat} (h : exec (.read n) s = .next t) :
    dataBitsIs8 s.config = true ∧ lengthFits s.config n = true ∧
      ∃ b b' vs, s.block = .live b ∧ popUpTo s.config n b = .ok (b', vs) ∧
        t = s.complete b' (.bytes vs.length (vs.map slotByte)) := by
  simp only [exec, execRead] at h
  split at h
  · cases h
  · split at h
    · cases h
    · rename_i h8 hn
      refine ⟨by simpa using h8, by simpa using hn, ?_⟩
      obtain ⟨b, b', r, hb, hf, rfl⟩ := onLive_next h
      unfold readBytes at hf
      cases hpop : popUpTo s.config n b with
      | error e => simp [hpop] at hf
      | ok x =>
        obtain ⟨b1, vs⟩ := x
        simp only [hpop] at hf
        cases hf
        exact ⟨b, _, vs, hb, hpop, by simp⟩

theorem exec_write_next {src : List Byte} (h : exec (.write src) s = .next t) :
    dataBitsIs8 s.config = true ∧ lengthFits s.config src.length = true ∧
      ∃ b, s.block = .live b ∧
        t = s.complete (pushAll s.config (src.map byteSlot) b) (.count src.length) := by
  simp only [exec, execWrite] at h
  split at h
  · cases h
  · split at h
    · cases h
    · rename_i h8 hn
      refine ⟨by simpa using h8, by simpa using hn, ?_⟩
      obtain ⟨b, b', r, hb, hf, rfl⟩ := onLive_next h
      cases hf
      exact ⟨b, hb, rfl⟩

/-- No operation touches the parameters or the owner's plan. -/
theorem exec_keeps {i : Instr} (h : exec i s = .next t) : t.config = s.config ∧ t.owner = s.owner := by
  cases i with
  | construct => obtain ⟨-, -, rfl⟩ := exec_construct_next h; simp
  | push v => obtain ⟨-, -, -, rfl⟩ := exec_push_next h; simp
  | next => obtain ⟨-, -, -, -, -, rfl⟩ := exec_next_next h; simp
  | clear => obtain ⟨-, -, rfl⟩ := exec_clear_next h; simp
  | drain => obtain ⟨-, -, -, -, -, rfl⟩ := exec_drain_next h; simp
  | read n => obtain ⟨-, -, -, -, -, -, -, rfl⟩ := exec_read_next h; simp
  | write src => obtain ⟨-, -, -, -, rfl⟩ := exec_write_next h; simp

/-- All that a step can do when it answers a next state. -/
theorem step_next (h : step s = .next t) :
    (s.owner = [] ∧ t = s) ∨
    (∃ rest, s.owner = .destroy :: rest ∧ t = destroy (s.withOwner rest)) ∨
    (∃ p rest, s.owner = .drive p :: rest ∧ decode s.config p = .error .noCommand ∧ t = s.withOwner rest) ∨
    (∃ p rest i, s.owner = .drive p :: rest ∧ decode s.config p = .ok i ∧ exec i (s.withOwner rest) = .next t) ∨
    (∃ p rest i f, s.owner = .drive p :: rest ∧ decode s.config p = .ok i ∧
      exec i (s.withOwner rest) = .fault (.constructionFailure f) ∧
      t = takeConstructionFailure f (s.withOwner rest)) := by
  unfold step at h
  split at h
  · cases h; exact .inl ⟨‹_›, rfl⟩
  · rename_i e rest ho
    cases e with
    | destroy => cases h; exact .inr (.inl ⟨rest, ho, rfl⟩)
    | drive p =>
      simp only [perform, issue, State.withOwner_config] at h
      split at h
      · rename_i i hd
        rcases settle_eq_next h with h' | ⟨f, h', rfl⟩
        · exact .inr (.inr (.inr (.inl ⟨p, rest, i, ho, hd, h'⟩)))
        · exact .inr (.inr (.inr (.inr ⟨p, rest, i, f, ho, hd, h', rfl⟩)))
      · cases h; exact .inr (.inr (.inl ⟨p, rest, ho, ‹_›, rfl⟩))
      · cases h

end Sys2Proof.Machine
end

