-- ==== Sys2Proof/Laws/Moves.lean ====
section
/-! SUPPORT. What PUSH, NEXT and their repetitions do to positions, epochs and legality, for the proofs to cite. -/

namespace Sys2Proof.Machine

theorem mod_of_lt_two {a C : Nat} (h : a < 2 * C) : a % C = if a < C then a else a - C := by
  split
  · exact Nat.mod_eq_of_lt ‹_›
  · rw [Nat.mod_eq_sub_mod (by omega), Nat.mod_eq_of_lt (by omega)]

theorem legalParameters_epochBits {c : Config} (h : legalParameters c = true) : 2 ≤ c.epochBits := by
  simp only [legalParameters, Bool.and_eq_true, decide_eq_true_eq] at h
  exact h.1.2

theorem epochs_half_ge {c : Config} (h : legalParameters c = true) : 2 ≤ 2 ^ (c.epochBits - 1) := by
  have := epochs_ge h; have := epochs_half h; omega

/-- The advance of a pointer is one step of its absolute position. -/
theorem advance_position {c : Config} {i e : Nat} (hi : i < c.capacity) (he : e < epochs c) :
    (if wraps c i then incEpoch c e else e) * c.capacity + nextIndex c i = (e * c.capacity + i + 1) % positions c := by
  have hle := Nat.mul_le_mul_right c.capacity (Nat.succ_le_of_lt he)
  rw [Nat.succ_mul] at hle
  rw [nextIndex_of_lt hi]
  by_cases hw : i = c.capacity - 1
  · rw [if_pos ((wraps_iff hi).2 hw), if_pos hw, Nat.add_zero]
    rw [show e * c.capacity + i + 1 = (e + 1) * c.capacity by rw [Nat.succ_mul]; omega]
    unfold incEpoch positions
    rw [Nat.mul_comm (epochs c), Nat.mul_comm (e+1), Nat.mul_mod_mul_left, Nat.mul_comm]
  · rw [if_neg (by rw [wraps_iff hi]; exact hw), if_neg hw]
    rw [Nat.mod_eq_of_lt]
    · omega
    · unfold positions; omega

theorem epochGap_incEpoch {c : Config} {r w : Nat} : epochGap c r (incEpoch c w) = (epochGap c r w + 1) % epochs c := by
  unfold epochGap incEpoch
  rw [Nat.mod_add_mod, Nat.mod_add_mod]; congr 1; omega

theorem epochGap_incEpoch_left {c : Config} {b : Buffer} (hr : b.readEpoch < epochs c) (hw : b.writeEpoch < epochs c) :
    epochGap c (incEpoch c b.readEpoch) b.writeEpoch =
      if epochsAhead c b = 0 then epochs c - 1 else epochsAhead c b - 1 := by
  unfold epochsAhead
  rw [epochGap_of_lt incEpoch_lt hw, epochGap_of_lt hr hw]
  unfold incEpoch
  by_cases h : b.readEpoch + 1 = epochs c
  · rw [h, Nat.mod_self]; split_ifs <;> omega
  · rw [Nat.mod_eq_of_lt (by omega)]; split_ifs <;> omega

theorem behind_iff {c : Config} {r w : Nat} :
    behind c r w = true ↔ 1 ≤ epochGap c r w ∧ epochGap c r w ≤ 2 ^ (c.epochBits - 1) - 1 := by
  simp [behind]

theorem isOverrun_iff {c : Config} {b : Buffer} : isOverrun c b = true ↔
    (1 ≤ epochsAhead c b ∧ epochsAhead c b ≤ 2 ^ (c.epochBits - 1) - 1) ∧ b.readIndex < b.writeIndex := by
  rw [epochsAhead, ← behind_iff]; simp [isOverrun]

theorem writePosition_inj {c : Config} {b b' : Buffer} (h : registersLegal c b) (h' : registersLegal c b')
    (he : writePosition c b' = writePosition c b) :
    b'.writeIndex = b.writeIndex ∧ b'.writeEpoch = b.writeEpoch := by
  unfold writePosition at he
  have e1 : b'.writeIndex = (b'.writeEpoch * c.capacity + b'.writeIndex) % c.capacity := by
    rw [Nat.mul_comm, Nat.mul_add_mod, Nat.mod_eq_of_lt h'.1]
  have e2 : b.writeIndex = (b.writeEpoch * c.capacity + b.writeIndex) % c.capacity := by
    rw [Nat.mul_comm, Nat.mul_add_mod, Nat.mod_eq_of_lt h.1]
  have : b'.writeIndex = b.writeIndex := by rw [e1, e2, he]
  refine ⟨this, ?_⟩
  have hc : 0 < c.capacity := by have := h.1; omega
  exact Nat.eq_of_mul_eq_mul_right hc (by omega)

theorem registersLegal_push {c : Config} {b : Buffer} {v : Slot} (h : registersLegal c b) :
    registersLegal c (pushSlot c v b) := by
  obtain ⟨hwi, hri, hwe, hre⟩ := h
  refine ⟨nextIndex_lt (by omega), hri, ?_, hre⟩
  simp only [pushSlot_writeEpoch]; split
  · exact incEpoch_lt
  · exact hwe

theorem registersLegal_pop {c : Config} {b b' : Buffer} {r} (h : registersLegal c b) (hb : popSlot c b = .ok (b', r)) :
    registersLegal c b' := by
  obtain ⟨hwi, hri, hwe, hre⟩ := h
  rcases popSlot_ok.1 hb with ⟨-, rfl, -⟩ | ⟨-, rfl, -⟩
  · exact ⟨hwi, hri, hwe, hre⟩
  · refine ⟨by simpa using hwi, nextIndex_lt (by omega), by simpa using hwe, ?_⟩
    simp only [advanceRead_readEpoch, catchUp_readEpoch]; split
    · exact incEpoch_lt
    · exact hre

/-- The catch-up step leaves the read index in range: it is one of the two indices. -/
theorem catchUp_readIndex_lt {c : Config} {b : Buffer} (h : registersLegal c b) :
    (catchUp c b).readIndex < c.capacity := by
  rw [catchUp_readIndex]; split
  · exact h.1
  · exact h.2.1

theorem pushSlot_fields {c : Config} {b : Buffer} {v : Slot} (hi : b.writeIndex < c.capacity) :
    (pushSlot c v b).writeIndex = (if b.writeIndex = c.capacity - 1 then 0 else b.writeIndex + 1) ∧
    (pushSlot c v b).readIndex = b.readIndex ∧ (pushSlot c v b).readEpoch = b.readEpoch ∧
    (pushSlot c v b).storage = b.storage.write b.writeIndex v :=
  ⟨nextIndex_of_lt hi, rfl, rfl, memWrite_of_lt _ _ hi⟩

theorem epochsAhead_push {c : Config} {b : Buffer} {v : Slot} (hi : b.writeIndex < c.capacity) :
    epochsAhead c (pushSlot c v b) =
      if b.writeIndex = c.capacity - 1 then (epochsAhead c b + 1) % epochs c else epochsAhead c b := by
  unfold epochsAhead
  simp only [pushSlot_readEpoch, pushSlot_writeEpoch]
  by_cases h : b.writeIndex = c.capacity - 1
  · rw [if_pos ((wraps_iff hi).2 h), if_pos h, epochGap_incEpoch]
  · rw [if_neg (by rw [wraps_iff hi]; exact h), if_neg h]

/-- A PUSH moves the write position by one. -/
theorem writePosition_push {c : Config} {b : Buffer} {v : Slot} (h : registersLegal c b) :
    writePosition c (pushSlot c v b) = (writePosition c b + 1) % positions c := by
  simp only [writePosition, pushSlot_writeEpoch, pushSlot_writeIndex]
  exact advance_position h.1 h.2.2.1

theorem popSlot_of_empty {c : Config} {b : Buffer} (h : isEmpty b = true) : popSlot c b = .ok (b, none) :=
  popSlot_ok.2 (.inl ⟨h, rfl, rfl⟩)

/-- Repeated PUSH keeps legal registers legal, and moves the write position by the number of pushes. -/
theorem pushAll_cursors {c : Config} {vs : List Slot} {b : Buffer} (h : registersLegal c b) :
    registersLegal c (pushAll c vs b) ∧ (pushAll c vs b).readIndex = b.readIndex ∧
      (pushAll c vs b).readEpoch = b.readEpoch ∧
      writePosition c (pushAll c vs b) = (writePosition c b + vs.length) % positions c := by
  induction vs generalizing b with
  | nil => exact ⟨h, rfl, rfl, by simp [pushAll, Nat.mod_eq_of_lt (writePosition_lt h)]⟩
  | cons v vs ih =>
    obtain ⟨h2, h3, h4, h5⟩ := ih (registersLegal_push (v := v) h)
    refine ⟨h2, h3, h4, ?_⟩
    rw [pushAll, h5, writePosition_push h, Nat.mod_add_mod, List.length_cons]
    congr 1
    omega

theorem byteSlot_slotByte {v : Slot} (h : v.width = 8) : byteSlot (slotByte v) = v := by
  obtain ⟨w, bits⟩ := v
  simp at h; subst h
  simp [byteSlot, slotByte]

theorem lengthFits_mono {c : Config} {m n : Nat} (h : lengthFits c n = true) (hm : m ≤ n) : lengthFits c m = true := by
  unfold lengthFits at *; split at h <;> simp_all; omega

theorem Pops.fit {c : Config} {b b' : Buffer} {vs} (h : storageLegal c b) (hp : Pops c b vs b') :
    ∀ v ∈ vs, slotFits c v = true := by
  induction hp with
  | none => simp
  | @more b b1 b2 v vs hpop _ ih =>
    have hst := (popSlot_frame hpop).2.2
    intro w hw
    rcases List.mem_cons.1 hw with rfl | hw
    · rcases popSlot_ok.1 hpop with ⟨-, -, h0⟩ | ⟨-, -, u, hu, h0⟩
      · cases h0
      · cases h0; exact (h.2 _ (Memory.read_mem hu)).2
    · exact ih (by simpa [storageLegal, hst] using h) w hw

theorem destroy_config (s : State) : (destroy s).config = s.config := by unfold destroy; split <;> rfl

theorem State.Inv.live {s : State} {b} (hi : s.Inv) (hb : s.block = .live b) :
    legalParameters s.config = true ∧ legalCapacity s.config = true ∧ bufferSound s.config b := by
  simpa only [State.Inv, hb] using hi

end Sys2Proof.Machine
end

