-- ==== Sys2Proof/Laws/PerInstr.lean ====
section
/-! SUPPORT. Per-instruction statements about operations as syntax: the port sample an operation is presented by spells
that operation. -/

namespace Sys2Proof.Laws.RoundTrip

/-- On every instance, a well-formed operation is decoded from its own port sample. -/
def Statement (i : Instr) : Prop :=
  ∀ c : Config, i.wellFormed c = true → decode c (encode c i) = .ok i

theorem construct : Statement .construct := fun _ _ => rfl

theorem push (v : Slot) : Statement (.push v) := by
  intro c h
  have h' : Machine.slotFits c v = true := h
  simp [decode, encode, commandPorts, decodeCommand, h']

theorem next : Statement .next := fun _ _ => rfl

theorem clear : Statement .clear := fun _ _ => rfl

theorem drain : Statement .drain := fun _ _ => rfl

theorem read (n : Nat) : Statement (.read n) := by
  intro c h
  obtain ⟨h8, hn⟩ : Machine.dataBitsIs8 c = true ∧ Machine.lengthFits c n = true := by
    simpa [Instr.wellFormed] using h
  simp [decode, encode, commandPorts, decodeCommand, decodeLength, h8, hn]

theorem write (src : List Byte) : Statement (.write src) := by
  intro c h
  obtain ⟨h8, hn⟩ : Machine.dataBitsIs8 c = true ∧ Machine.lengthFits c src.length = true := by
    simpa [Instr.wellFormed] using h
  simp [decode, encode, commandPorts, decodeCommand, decodeLength, h8, hn]

end Sys2Proof.Laws.RoundTrip
end

