-- ==== Sys2Proof/Tests/Slice0.lean ====
section
/-! SUPPORT. The author's tests, with expected values from spec/95_test_vectors.md and the encodings of
spec/30_encoding.md, and for every statement with hypotheses a concrete state that meets them. -/

namespace Sys2Proof.Tests

open Sys2Proof Sys2Proof.Machine

/-! Helpers. -/

/-- The vectors' parameters: `EPOCH_BITS = 8`, `DATA_BITS = 8`. -/
def cfg (capacity : Nat) : Config :=
  { capacity := capacity, maxCapacity := 65536, dataBits := 8, epochBits := 8, countBits := none }

def byte (n : Nat) : Slot := byteSlot (BitVec.ofNat 8 n)

/-- The vectors' `st=[..]`: slot 0 first; slots beyond the list hold no value. -/
def slots : Nat → List Nat → Memory
  | _, [] => []
  | i, x :: xs => (i, byte x) :: slots (i + 1) xs

/-- The vectors' `st=.. wi=.. ri=.. we=.. re=..`. -/
def buf (st : List Nat) (wi ri we re : Nat) : Buffer :=
  { writeIndex := wi, readIndex := ri, writeEpoch := we, readEpoch := re, storage := slots 0 st }

def onBlock (c : Config) (x : Lifecycle) : State := { config := c, block := x, owner := [], result := none }

def live (capacity : Nat) (b : Buffer) : State := onBlock (cfg capacity) (.live b)

def fresh (capacity : Nat) : State := live capacity Buffer.fresh

/-- The next state, if there is one. -/
def nextOf : Host.Outcome State Fault Refusal → Option State
  | .next s => some s
  | .fault _ => none
  | .refused _ => none

def blockOf (o : Host.Outcome State Fault Refusal) : Option Lifecycle := (nextOf o).map State.block

def resultOf (o : Host.Outcome State Fault Refusal) : Option Result := (nextOf o).bind State.result

def refusalOf : Host.Outcome State Fault Refusal → Option Refusal
  | .next _ => none
  | .fault _ => none
  | .refused r => some r

def faultOf : Host.Outcome State Fault Refusal → Option Fault
  | .next _ => none
  | .fault e => some e
  | .refused _ => none

/-- The instruction left a live buffer `b` and the result `r`. -/
def gives (o : Host.Outcome State Fault Refusal) (b : Buffer) (r : Result) : Bool :=
  blockOf o == some (.live b) && resultOf o == some r

def okOf {α : Type} : Except Reject α → Option α
  | .ok a => some a
  | .error _ => none

def rejectOf {α : Type} : Except Reject α → Option Reject
  | .ok _ => none
  | .error r => some r

/-- `cmd_valid = 1` with the operand ports at zero. -/
def command (op : BitVec 3) : Ports :=
  { rst := false, cmdValid := true, cmdOp := op, cmdData := byte 0, cmdLen := 0, src := [] }

/-- `p` and `g` show a buffer sound. -/
def sound (c : Config) (b : Buffer) (p g : Nat) : Bool :=
  legalParameters c && legalCapacity c &&
  decide (b.writeIndex < c.capacity ∧ b.readIndex < c.capacity ∧ b.writeEpoch < epochs c ∧ b.readEpoch < epochs c) &&
  (b.storage.wf && decide (∀ cell ∈ b.storage, cell.1 < c.capacity ∧ slotFits c cell.2 = true)) &&
  decide (g ≤ p ∧ b.writeIndex = p % c.capacity ∧ b.writeEpoch = p / c.capacity % epochs c ∧
    b.readIndex = g % c.capacity ∧ b.readEpoch = g / c.capacity % epochs c ∧
    ∀ i, i < c.capacity → i < p → (b.storage.read i).isSome = true)

theorem bufferSound_of {c : Config} {b : Buffer} (p g : Nat) (h : sound c b p g = true) : bufferSound c b := by
  simp only [sound, Bool.and_eq_true, decide_eq_true_eq] at h
  exact ⟨h.1.1.2, h.1.2, p, g, h.2⟩

theorem inv_of {s : State} {b : Buffer} (hb : s.block = .live b) (p g : Nat) (h : sound s.config b p g = true) :
    s.Inv := by
  have hs := bufferSound_of p g h
  simp only [sound, Bool.and_eq_true] at h
  simp only [State.Inv, hb]
  exact ⟨h.1.1.1.1, h.1.1.1.2, hs⟩

/-! WellFormed: an ill-formed term for each check, and that it is the check that refuses it. -/

theorem test_wellFormed_push_width : Instr.wellFormed (cfg 4) (.push ⟨16, 1⟩) = false := by decide

theorem test_wellFormed_read_dataBits : Instr.wellFormed { cfg 4 with dataBits := 16 } (.read 1) = false := by decide

theorem test_wellFormed_read_length :
    Instr.wellFormed { cfg 4 with countBits := some 2 } (.read 4) = false ∧
    Instr.wellFormed { cfg 4 with countBits := some 2 } (.read 3) = true := by decide

theorem test_wellFormed_write_dataBits : Instr.wellFormed { cfg 4 with dataBits := 7 } (.write [1]) = false := by decide

theorem test_wellFormed_write_length :
    Instr.wellFormed { cfg 4 with countBits := some 1 } (.write [1, 2]) = false ∧
    Instr.wellFormed { cfg 4 with countBits := some 1 } (.write [1]) = true := by decide

/-! Decoding. The codes are written out bit by bit from spec/30_encoding.md R58 and R63, the operands from Programs 1 and 3
of spec/95_test_vectors.md. -/

theorem test_decode_construct :
    okOf (decode (cfg 4) { command 0b000#3 with rst := true, cmdValid := false }) = some .construct := by decide

theorem test_decode_push :
    okOf (decode (cfg 4) { command 0b001#3 with cmdData := ⟨8, 0b00000010#8⟩ }) = some (.push (byte 2)) := by decide

theorem test_decode_next : okOf (decode (cfg 4) (command 0b010#3)) = some .next := by decide

theorem test_decode_clear : okOf (decode (cfg 4) (command 0b011#3)) = some .clear := by decide

theorem test_decode_drain : okOf (decode (cfg 4) (command 0b100#3)) = some .drain := by decide

theorem test_decode_read : okOf (decode (cfg 4) { command 0b101#3 with cmdLen := 2 }) = some (.read 2) := by decide

theorem test_decode_write :
    okOf (decode (cfg 4) { command 0b110#3 with cmdLen := 2, src := [0x10#8, 0x60#8] }) =
      some (.write [0x10#8, 0x60#8]) := by decide

/-- R64: `000` and `111` are reserved. -/
theorem test_decode_reserved :
    rejectOf (decode (cfg 4) (command 0b000#3)) = some (.reservedCode 0b000#3) ∧
    rejectOf (decode (cfg 4) (command 0b111#3)) = some (.reservedCode 0b111#3) := by decide

/-- R65: with `DATA_BITS = 16` the codes `101` and `110` are reserved; `001` is not. -/
theorem test_decode_byte_operations_absent :
    rejectOf (decode { cfg 4 with dataBits := 16 } (command 0b101#3)) = some (.byteOperationAbsent 0b101#3) ∧
    rejectOf (decode { cfg 4 with dataBits := 16 } (command 0b110#3)) = some (.byteOperationAbsent 0b110#3) ∧
    okOf (decode { cfg 4 with dataBits := 16 } { command 0b001#3 with cmdData := ⟨16, 0x1234#16⟩ }) =
      some (.push ⟨16, 0x1234#16⟩) := by decide

theorem test_decode_operand_rejected :
    rejectOf (decode (cfg 4) { command 0b001#3 with cmdData := ⟨4, 1⟩ }) = some (.dataWidth 4) ∧
    rejectOf (decode (cfg 4) { command 0b110#3 with cmdLen := 3, src := [1] }) = some (.sourceLength 3 1) ∧
    rejectOf (decode { cfg 4 with countBits := some 1 } { command 0b101#3 with cmdLen := 2 }) =
      some (.lengthDoesNotFit 2) := by decide

theorem test_decode_no_command :
    rejectOf (decode (cfg 4) { command 0b001#3 with cmdValid := false }) = some .noCommand := by decide

/-! One step of each instruction. -/

/-- K5 and K7: construction at the limit, and reset of a used instance, which forgets its slots. -/
theorem test_construct_live :
    blockOf (exec .construct (fresh 65536)) = some (.live Buffer.fresh) ∧
    blockOf (exec .construct (live 2 (buf [1, 2] 0 0 1 0))) = some (.live Buffer.fresh) := by decide

/-- K3 and K4: CONSTRUCT returns the fault, and the step that runs it leaves a `Failed` instance. -/
theorem test_construct_fails :
    faultOf (exec .construct (onBlock (cfg 0) .absent)) = some (.constructionFailure { code := 1, capacity := 0 }) ∧
    faultOf (exec .construct (onBlock (cfg 65537) .absent)) =
      some (.constructionFailure { code := 1, capacity := 65537 }) ∧
    blockOf (step ((onBlock (cfg 0) .absent).withOwner [.drive (resetPorts (cfg 0))])) =
      some (.failed { code := 1, capacity := 0 }) := by decide

/-- PU4: the epoch counter wraps 255 to 0 with the index. -/
theorem test_push_wraps_epoch :
    gives (exec (.push (byte 6)) (live 2 (buf [11, 12] 1 0 255 255))) (buf [11, 6] 0 0 0 255) .unit = true := by decide

/-- PU5: a push while FULL at the last slot. -/
theorem test_push_full_last_slot :
    gives (exec (.push (byte 4)) (live 2 (buf [3, 2] 1 1 1 0))) (buf [3, 4] 0 1 2 0) .unit = true := by decide

/-- X7: jump to the last slot, then wrap. -/
theorem test_next_jump_then_wrap :
    gives (exec .next (live 2 (buf [2, 1] 1 0 1 0))) (buf [2, 1] 1 0 1 1) (.opt (some (byte 1))) = true := by decide

/-- X10 and X11: the writer 127 epochs ahead is "behind" true, 128 is not. -/
theorem test_next_half_range :
    gives (exec .next (live 4 (buf [1, 2, 3, 4] 2 1 127 0))) (buf [1, 2, 3, 4] 2 3 127 0) (.opt (some (byte 3))) = true ∧
    gives (exec .next (live 4 (buf [1, 2, 3, 4] 2 1 128 0))) (buf [1, 2, 3, 4] 2 2 128 0) (.opt (some (byte 2))) = true := by
  decide

/-- C-1. -/
theorem test_clear :
    gives (exec .clear (live 4 (buf [4, 5, 2, 3] 2 0 1 0))) (buf [4, 5, 2, 3] 0 0 0 0) .unit = true := by decide

/-- DR4, DR7, which is outside the envelope, and DR6: an empty drain still zeroes the registers. -/
theorem test_drain :
    gives (exec .drain (live 4 (buf [5, 2, 3, 4] 1 0 1 0))) (buf [5, 2, 3, 4] 0 0 0 0)
      (.seq [byte 2, byte 3, byte 4, byte 5]) = true ∧
    gives (exec .drain (live 2 (buf [5, 4] 1 0 2 0))) (buf [5, 4] 0 0 0 0)
      (.seq [byte 4, byte 4, byte 5]) = true ∧
    gives (exec .drain (live 3 (buf [1, 2] 2 2 0 0))) (buf [1, 2] 0 0 0 0) (.seq []) = true := by decide

/-- W8: the writer 255 epochs ahead, no jump until the gap is 127; 384 values come. -/
theorem test_drain_half_range :
    (match drainSlots (cfg 2) (buf [254, 253] 1 0 255 0) with | .ok (_, vs) => vs.length | .error _ => 0) = 384 := by
  decide +kernel

/-- RD7: the jump forfeits bytes 1 and 2. -/
theorem test_read_jump :
    gives (exec (.read 2) (live 4 (buf [5, 6, 3, 4] 2 0 1 0))) (buf [5, 6, 3, 4] 2 0 1 1) (.bytes 2 [3, 4]) = true := by
  decide

/-- RD3 and RD8: no room, and a destination longer than the data. -/
theorem test_read_ends :
    gives (exec (.read 0) (live 4 (buf [1, 2, 3] 3 0 0 0))) (buf [1, 2, 3] 3 0 0 0) (.bytes 0 []) = true ∧
    gives (exec (.read 8) (live 4 (buf [5, 6, 3, 4] 2 0 1 1))) (buf [5, 6, 3, 4] 2 2 1 1) (.bytes 2 [5, 6]) = true := by
  decide

/-- W4 and W6. -/
theorem test_write :
    gives (exec (.write [3, 4, 5]) (live 4 (buf [1, 2] 2 0 0 0))) (buf [5, 2, 3, 4] 1 0 1 0) (.count 3) = true ∧
    gives (exec (.write [1, 2, 3, 4, 5, 6, 7, 8, 9]) (fresh 4)) (buf [9, 6, 7, 8] 1 0 2 0) (.count 9) = true := by decide

/-- K6 and RD10: refused. -/
theorem test_refused :
    refusalOf (exec (.push (byte 1)) (onBlock (cfg 0) (.failed { code := 1, capacity := 0 }))) = some (.notLive .failed) ∧
    refusalOf (exec (.read 1) (onBlock { cfg 4 with dataBits := 16 } (.live Buffer.fresh))) =
      some .byteOperationAbsent := by decide

/-- The safety net: NEXT on a slot that holds no value, in a state that is not sound. -/
theorem test_valueless_slot :
    faultOf (exec .next (live 2 (buf [7] 0 1 1 0))) = some (.valuelessSlot 1) := by decide

/-! Status outputs: rows of spec/95_test_vectors.md section 2.8, and `INDEX_BITS` of K1, K2. -/

theorem test_status_rows :
    [buf [] 0 0 0 0, buf [] 2 2 1 0, buf [] 2 0 1 0, buf [] 1 3 1 0, buf [] 2 1 0 255, buf [] 2 1 127 0, buf [] 2 1 128 0,
      buf [] 1 2 5 5].map (fun b => (isEmpty b, isFull (cfg 4) b, isOverrun (cfg 4) b, pending (cfg 4) b)) =
    [(true, false, false, 0), (false, true, false, 4), (false, false, true, 6), (false, false, false, 2),
      (false, false, true, 5), (false, false, true, 509), (false, false, false, 513), (false, false, false, 1023)] := by
  decide

theorem test_outputs_of_none :
    (outputs { fresh 4 with result := some (.opt none) }).rspSome = some false ∧
    (outputs { fresh 4 with result := some (.opt none) }).rspData = none ∧
    (outputs (fresh 4)).rspValid = false ∧ (outputs (fresh 4)).empty = some true := by decide

theorem test_index_bits : [1, 2, 3, 4, 5, 8, 9].map (fun n => indexBits (cfg n)) = [1, 1, 2, 2, 3, 3, 4] := by decide

/-! The step. -/

/-- Program 4, line 8, and a command of Program 1 presented on the ports. -/
theorem test_step :
    refusalOf (step { fresh 2 with owner := [.drive (command 0b111#3)] }) =
      some (.undecodable (.reservedCode 0b111#3)) ∧
    gives (step { fresh 2 with owner := [.drive { command 0b001#3 with cmdData := byte 5 }] }) (buf [5] 1 0 0 0) .unit = true ∧
    blockOf (step { fresh 2 with owner := [.destroy] }) = some .absent := by decide

/-- The first instruction after reset is the one its opcode-table word names. -/
theorem test_withFetchWord :
    resultOf (step (State.reset.withFetchWord 8 0b001)) = some .unit ∧
    resultOf (step (State.reset.withFetchWord 8 0b010)) = some (.opt none) ∧
    resultOf (step (State.reset.withFetchWord 8 0b100)) = some (.seq []) ∧
    resultOf (step (State.reset.withFetchWord 8 0b101)) = some (.bytes 0 []) ∧
    resultOf (step (State.reset.withFetchWord 8 0b110)) = some (.count 0) ∧
    blockOf (step (State.reset.withFetchWord 1 1)) = some (.live Buffer.fresh) := by decide

/-! WITNESSES. For each statement with hypotheses, a concrete state and operands that meet all of them, clause by clause, at
the edges of each clause's range. -/

def absent0 : State := onBlock (cfg 4) .absent
def failed0 : State := onBlock (cfg 0) (.failed { code := 1, capacity := 0 })
def pushed2 : State := live 3 (buf [10, 11] 2 0 0 0)
def full2 : State := live 2 (buf [1, 2] 0 0 1 0)
def fullLast2 : State := live 2 (buf [3, 2] 1 1 1 0)
def overrun2 : State := live 2 (buf [2, 1] 1 0 1 0)
def empty2 : State := live 2 (buf [2, 1] 1 1 1 1)
def farAhead4 : State := live 4 (buf [1, 2, 3, 4] 2 1 127 0)

theorem failed0_inv : failed0.Inv := ⟨rfl, rfl⟩
theorem pushed2_inv : pushed2.Inv := inv_of rfl 2 0 (by decide)
theorem full2_inv : full2.Inv := inv_of rfl 2 0 (by decide)
theorem overrun2_inv : overrun2.Inv := inv_of rfl 3 0 (by decide)
theorem empty2_inv : empty2.Inv := inv_of rfl 3 3 (by decide)
theorem farAhead4_inv : farAhead4.Inv := inv_of rfl 510 1 (by decide)
theorem fresh_inv : (fresh 1).Inv := inv_of rfl 0 0 (by decide)

theorem test_hyp_ConstructBuildsOrFails :
    (∀ n ∈ [0, 1, 65536, 65537], legalParameters (cfg n) = true) ∧
    legalCapacity (cfg 1) = true ∧ legalCapacity (cfg 65536) = true ∧
    legalCapacity (cfg 0) = false ∧ legalCapacity (cfg 65537) = false := by decide

theorem test_hyp_ConstructionFailureTaken :
    (∃ f, exec .construct (onBlock (cfg 0) .absent) = .fault (.constructionFailure f)) ∧
    (∃ t, exec .next full2 = .next t) ∧ (∃ t, exec .construct full2 = .next t) ∧
    (legalParameters (cfg 0) = true ∧ legalCapacity (cfg 0) = false) ∧
    (legalParameters (cfg 65537) = true ∧ legalCapacity (cfg 65537) = false) ∧
    ((onBlock (cfg 0) .absent).withOwner [.drive (resetPorts (cfg 0))]).owner = [.drive (resetPorts (cfg 0))] ∧
    (resetPorts (cfg 0)).rst = true :=
  ⟨⟨_, rfl⟩, ⟨_, rfl⟩, ⟨_, rfl⟩, by decide, by decide, rfl, rfl⟩

theorem test_hyp_RequestsOutsideParametersRefused :
    legalParameters { cfg 4 with maxCapacity := 0 } = false ∧ legalParameters { cfg 4 with dataBits := 0 } = false ∧
    legalParameters { cfg 4 with epochBits := 1 } = false ∧ legalParameters { cfg 4 with countBits := some 0 } = false ∧
    legalParameters { cfg 4 with maxCapacity := 1, dataBits := 1, epochBits := 2, countBits := some 1 } = true ∧
    (⟨7, 0⟩ : Slot).width ≠ (cfg 4).dataBits := by decide

theorem test_hyp_IndexBitsHoldEveryIndex :
    (∀ n ∈ [1, 2, 5, 65536], legalCapacity (cfg n) = true) ∧ registersLegal (cfg 5) (buf [] 4 4 0 0) ∧
    1 ≤ 3 ∧ (cfg 5).capacity ≤ 2 ^ 3 := ⟨by decide, by unfold registersLegal; decide, by decide, by decide⟩

theorem test_hyp_OnlyLiveInstancesTakeCommands :
    absent0.status ≠ .live ∧ failed0.status ≠ .live ∧ Instr.next ≠ .construct ∧
    Instr.wellFormed absent0.config (.read 0) = true ∧ Instr.wellFormed failed0.config (.push (byte 255)) = true := by decide

theorem test_hyp_FailedInstanceStaysFailed :
    failed0.Inv ∧ failed0.status = .failed ∧ (∃ t, step failed0 = .next t) ∧
    (∃ t, step { failed0 with owner := [.drive (resetPorts failed0.config)] } = .next t) :=
  ⟨failed0_inv, rfl, ⟨_, rfl⟩, _, rfl⟩

theorem test_hyp_DestroyEndsTheInstance :
    (full2.withOwner [.destroy]).block = .live (buf [1, 2] 0 0 1 0) ∧ (full2.withOwner [.destroy]).owner = [.destroy] :=
  ⟨rfl, rfl⟩

theorem test_hyp_PushStoresThenAdvances :
    full2.block = .live (buf [1, 2] 0 0 1 0) ∧ 0 < full2.config.capacity ∧
    fullLast2.block = .live (buf [3, 2] 1 1 1 0) ∧ 1 < fullLast2.config.capacity ∧ (byte 9).width = full2.config.dataBits := by
  decide

theorem test_hyp_IndexAdvanceIsCircular : 0 < (cfg 4).capacity ∧ 3 < (cfg 4).capacity ∧ 0 < (cfg 1).capacity := by decide

theorem test_hyp_EpochCountsWraps :
    255 < 2 ^ (cfg 4).epochBits ∧ (cfg 4).epochBits = 8 ∧
    (∃ b', b' = pushSlot (cfg 2) (byte 6) (buf [1, 2] 1 0 255 255)) ∧
    (∃ b', b' = pushSlot (cfg 2) (byte 6) (buf [1, 2] 0 0 255 255)) ∧
    (∃ b' v, popSlot (cfg 2) (buf [2, 1] 1 0 1 0) = .ok (b', some v)) ∧
    (∃ b' v, popSlot (cfg 3) (buf [10, 11] 2 0 0 0) = .ok (b', some v)) :=
  ⟨by decide, rfl, ⟨_, rfl⟩, ⟨_, rfl⟩, ⟨_, _, rfl⟩, _, _, rfl⟩

theorem test_hyp_OverwriteWhileFull :
    legalParameters (cfg 2) = true ∧ registersLegal (cfg 2) (buf [1, 2] 0 0 1 0) ∧ isFull (cfg 2) (buf [1, 2] 0 0 1 0) = true ∧
    registersLegal (cfg 2) (buf [3, 2] 1 1 1 0) ∧ isFull (cfg 2) (buf [3, 2] 1 1 1 0) = true ∧
    registersLegal (cfg 1) (buf [7] 0 0 0 255) ∧ isFull (cfg 1) (buf [7] 0 0 0 255) = true ∧
    (∃ b', b' = pushSlot (cfg 2) (byte 4) (buf [1, 2] 0 0 1 0)) ∧
    (∃ b', b' = pushSlot (cfg 2) (byte 4) (buf [3, 2] 1 1 1 0)) ∧
    (∃ b', b' = pushSlot (cfg 1) (byte 4) (buf [7] 0 0 0 255)) := by
  unfold registersLegal
  exact ⟨by decide, by decide, by decide, by decide, by decide, by decide, by decide, ⟨_, rfl⟩, ⟨_, rfl⟩, _, rfl⟩

theorem test_hyp_PushesOfAllPositionsAlias :
    registersLegal { cfg 1 with epochBits := 2 } (buf [7] 0 0 3 1) ∧
    [byte 1, byte 2, byte 3, byte 4].length = 2 ^ 2 * (cfg 1).capacity := by unfold registersLegal; decide

theorem test_hyp_BehindIsSignedDifference :
    2 ≤ (cfg 4).epochBits ∧ 255 < 2 ^ (cfg 4).epochBits ∧ 0 < 2 ^ (cfg 4).epochBits ∧ 128 < 2 ^ (cfg 4).epochBits ∧
    2 ≤ { cfg 4 with epochBits := 2 }.epochBits := by decide

theorem test_hyp_EmptyConditionFollowsCommands :
    (∃ t, exec .construct full2 = .next t ∧ t.block = .live Buffer.fresh) ∧
    (∃ t b, exec .clear full2 = .next t ∧ t.block = .live b) ∧ (∃ t b, exec .drain full2 = .next t ∧ t.block = .live b) ∧
    legalParameters (cfg 2) = true ∧ registersLegal (cfg 2) (buf [2, 1] 1 1 1 1) ∧ isEmpty (buf [2, 1] 1 1 1 1) = true ∧
    (∃ b', b' = pushSlot (cfg 2) (byte 1) (buf [2, 1] 1 1 1 1)) ∧
    registersLegal (cfg 2) (buf [8, 9] 1 0 255 0) ∧ isEmpty (buf [8, 9] 1 0 255 0) = false ∧
    pending (cfg 2) (buf [8, 9] 1 0 255 0) = 2 ^ 8 * 2 - 1 ∧
    (∃ b', b' = pushSlot (cfg 2) (byte 1) (buf [8, 9] 1 0 255 0)) := by
  unfold registersLegal
  exact ⟨⟨_, rfl, rfl⟩, ⟨_, _, rfl, rfl⟩, ⟨_, _, rfl, rfl⟩, by decide, by decide, by decide, ⟨_, rfl⟩, by decide, by decide,
    by decide, _, rfl⟩

theorem test_hyp_FullIsPendingCapacity :
    legalParameters (cfg 2) = true ∧ registersLegal (cfg 2) (buf [1, 2] 1 1 0 255) ∧
    isFull (cfg 2) (buf [1, 2] 1 1 0 255) = true ∧ pending (cfg 2) (buf [1, 2] 1 1 0 255) = 2 := by
  unfold registersLegal; decide

theorem test_hyp_OverrunClearedByJump :
    isOverrun (cfg 4) (buf [] 2 1 127 0) = true ∧ isOverrun (cfg 2) (buf [] 1 0 0 255) = true := by decide

theorem test_hyp_StatusConditionsExclusive :
    legalParameters (cfg 2) = true ∧ registersLegal (cfg 2) (buf [] 1 1 255 255) := by unfold registersLegal; decide

theorem test_hyp_OutputsShowTheRegisters : overrun2.block = .live (buf [2, 1] 1 0 1 0) := rfl

theorem test_hyp_ResponsesMatchCommands :
    (∃ t, exec .construct full2 = .next t) ∧ (∃ t, exec (.push (byte 1)) full2 = .next t) ∧
    (∃ t, exec .clear full2 = .next t) ∧ (∃ t, exec .next full2 = .next t) ∧ (∃ t, exec .drain full2 = .next t) ∧
    (∃ t, exec (.read 2) full2 = .next t) ∧ (∃ t, exec (.write [1]) full2 = .next t) :=
  ⟨⟨_, rfl⟩, ⟨_, rfl⟩, ⟨_, rfl⟩, ⟨_, rfl⟩, ⟨_, rfl⟩, ⟨_, rfl⟩, _, rfl⟩

theorem test_hyp_NextOnEmptyReturnsNothing :
    empty2.block = .live (buf [2, 1] 1 1 1 1) ∧ (buf [2, 1] 1 1 1 1).readIndex = (buf [2, 1] 1 1 1 1).writeIndex ∧
    (buf [2, 1] 1 1 1 1).readEpoch = (buf [2, 1] 1 1 1 1).writeEpoch := ⟨rfl, rfl, rfl⟩

theorem test_hyp_NextReadsThenAdvances :
    (pushed2.Inv ∧ isEmpty (buf [10, 11] 2 0 0 0) = false ∧ isOverrun pushed2.config (buf [10, 11] 2 0 0 0) = false) ∧
    (overrun2.Inv ∧ isEmpty (buf [2, 1] 1 0 1 0) = false ∧
      (catchUp overrun2.config (buf [2, 1] 1 0 1 0)).readIndex = overrun2.config.capacity - 1) :=
  ⟨⟨pushed2_inv, by decide, by decide⟩, overrun2_inv, by decide, by decide⟩

theorem test_hyp_CatchUpJumpsToWriteIndex :
    (overrun2.Inv ∧ behind overrun2.config 0 1 = true ∧ 0 < 1) ∧
    (farAhead4.Inv ∧ behind farAhead4.config 0 127 = true ∧ 1 < 2) :=
  ⟨⟨overrun2_inv, by decide, by decide⟩, farAhead4_inv, by decide, by decide⟩

theorem test_hyp_NextLeavesNoOverrunInEnvelope :
    legalParameters (cfg 2) = true ∧ bufferSound (cfg 2) (buf [2, 1] 1 0 1 0) ∧ epochsAhead (cfg 2) (buf [2, 1] 1 0 1 0) ≤ 1 ∧
    (∃ b' v, popSlot (cfg 2) (buf [2, 1] 1 0 1 0) = .ok (b', some v)) ∧
    bufferSound (cfg 3) (buf [10, 11] 2 0 0 0) ∧ epochsAhead (cfg 3) (buf [10, 11] 2 0 0 0) = 0 ∧
    (∃ b' v, popSlot (cfg 3) (buf [10, 11] 2 0 0 0) = .ok (b', some v)) :=
  ⟨by decide, bufferSound_of 3 0 (by decide), by decide, ⟨_, _, rfl⟩, bufferSound_of 2 0 (by decide), by decide, _, _, rfl⟩

theorem test_hyp_HalfRangeTakesNoJump :
    2 ^ (8 - 1) ≤ epochsAhead (cfg 4) (buf [1, 2, 3, 4] 2 1 128 0) ∧
    2 ^ (8 - 1) ≤ epochsAhead (cfg 4) (buf [1, 2, 3, 4] 2 1 0 1) ∧
    (∃ b' v, popSlot (cfg 4) (buf [1, 2, 3, 4] 2 1 128 0) = .ok (b', some v)) := ⟨by decide, by decide, _, _, rfl⟩

theorem test_hyp_SingleSlotNeverJumps :
    (cfg 1).capacity = 1 ∧ registersLegal (cfg 1) (buf [9] 0 0 3 255) ∧
    (∃ b' v, popSlot (cfg 1) (buf [9] 0 0 3 255) = .ok (b', some v)) := by
  unfold registersLegal; exact ⟨rfl, by decide, _, _, rfl⟩

theorem test_hyp_PendingCountsPushes :
    registersLegal (cfg 2) (buf [8, 9] 1 0 255 0) ∧ (∃ b', b' = pushSlot (cfg 2) (byte 1) (buf [8, 9] 1 0 255 0)) ∧
    registersLegal (cfg 2) (buf [] 0 0 0 0) ∧ (∃ b', b' = pushSlot (cfg 2) (byte 1) (buf [] 0 0 0 0)) := by
  unfold registersLegal; exact ⟨by decide, ⟨_, rfl⟩, by decide, _, rfl⟩

theorem test_hyp_NextLowersPending :
    (registersLegal (cfg 3) (buf [10, 11] 2 0 0 0) ∧ isOverrun (cfg 3) (buf [10, 11] 2 0 0 0) = false ∧
      ∃ b' v, popSlot (cfg 3) (buf [10, 11] 2 0 0 0) = .ok (b', some v)) ∧
    (registersLegal (cfg 4) (buf [1, 2, 3, 4] 2 1 127 0) ∧ isOverrun (cfg 4) (buf [1, 2, 3, 4] 2 1 127 0) = true ∧
      ∃ b' v, popSlot (cfg 4) (buf [1, 2, 3, 4] 2 1 127 0) = .ok (b', some v)) := by
  unfold registersLegal; exact ⟨⟨by decide, by decide, _, _, rfl⟩, by decide, by decide, _, _, rfl⟩

theorem test_hyp_ClearZeroesTheCursors : overrun2.block = .live (buf [2, 1] 1 0 1 0) := rfl

theorem test_hyp_ClearForgetsEverything :
    ∃ t u b, exec .clear overrun2 = .next t ∧ legalCapacity t.config = true ∧ exec (.push (byte 3)) t = .next u ∧
      u.block = .live b := ⟨_, _, _, rfl, rfl, rfl, rfl⟩

theorem test_hyp_DrainIsNextUntilNoneThenClear :
    (empty2.Inv ∧ empty2.block = .live (buf [2, 1] 1 1 1 1)) ∧ (overrun2.Inv ∧ overrun2.block = .live (buf [2, 1] 1 0 1 0)) :=
  ⟨⟨empty2_inv, rfl⟩, overrun2_inv, rfl⟩

theorem test_hyp_DrainReturnsAtMostPending :
    full2.Inv ∧ full2.block = .live (buf [1, 2] 0 0 1 0) ∧
    ∃ t, exec .drain full2 = .next t ∧ t.result = some (.seq [byte 1, byte 2]) := ⟨full2_inv, rfl, _, rfl, by decide⟩

theorem test_hyp_ReadDeliversInOrder :
    full2.Inv ∧ full2.block = .live (buf [1, 2] 0 0 1 0) ∧ Instr.wellFormed full2.config (.read 2) = true ∧
    Instr.wellFormed full2.config (.read 3) = true ∧ Instr.wellFormed full2.config (.read 0) = true :=
  ⟨full2_inv, rfl, by decide, by decide, by decide⟩

theorem test_hyp_ReadOfNothingChangesNothing :
    full2.block = .live (buf [1, 2] 0 0 1 0) ∧ Instr.wellFormed full2.config (.read 0) = true ∧
    empty2.block = .live (buf [2, 1] 1 1 1 1) ∧ Instr.wellFormed empty2.config (.read 5) = true ∧
    isEmpty (buf [2, 1] 1 1 1 1) = true := by decide

theorem test_hyp_WriteIsRepeatedPush :
    fullLast2.block = .live (buf [3, 2] 1 1 1 0) ∧
    Instr.wellFormed fullLast2.config (.write []) = true ∧ Instr.wellFormed fullLast2.config (.write [1, 2, 3]) = true := by
  decide

theorem test_hyp_WriteAdvancesByLength :
    fullLast2.block = .live (buf [3, 2] 1 1 1 0) ∧ registersLegal fullLast2.config (buf [3, 2] 1 1 1 0) ∧
    Instr.wellFormed fullLast2.config (.write [4, 5, 6]) = true ∧
    (([4, 5, 6] : List Byte)[1]? = some 5 ∧ 3 ≤ 1 + fullLast2.config.capacity) ∧
    (∀ k, k < ([4] : List Byte).length → (1 + k) % fullLast2.config.capacity ≠ 0) := by unfold registersLegal; decide

theorem test_hyp_ByteCommandsNeedEightBits :
    (onBlock { cfg 4 with dataBits := 9 } (.live Buffer.fresh)).config.dataBits ≠ 8 ∧
    (command 0b101#3).rst = false ∧ (command 0b101#3).cmdValid = true ∧ (command 0b110#3).cmdOp = 0b110#3 := by decide

theorem test_hyp_LengthsMustFitCountBits :
    { cfg 4 with countBits := some 1 }.dataBits = 8 ∧ { cfg 4 with countBits := some 1 }.countBits = some 1 ∧
    2 ^ 1 ≤ 2 ∧ 2 ^ 1 ≤ ([7, 8] : List Byte).length ∧ 1 < 2 ^ 1 ∧ ([7] : List Byte).length < 2 ^ 1 ∧
    (cfg 4).dataBits = 8 ∧ (cfg 4).countBits = none := by decide

theorem test_hyp_StoringCommandsFrame :
    full2.block = .live (buf [1, 2] 0 0 1 0) ∧ (∃ t b', exec (.push (byte 3)) full2 = .next t ∧ t.block = .live b') ∧
    (∃ t b', exec (.write [3]) full2 = .next t ∧ t.block = .live b') ∧ 1 ≠ (buf [1, 2] 0 0 1 0).writeIndex ∧
    (∀ k, k < ([3] : List Byte).length → (0 + k) % full2.config.capacity ≠ 1) :=
  ⟨rfl, ⟨_, _, rfl, rfl⟩, ⟨_, _, rfl, rfl⟩, by decide, by decide⟩

theorem test_hyp_PoppingCommandsFrame :
    overrun2.block = .live (buf [2, 1] 1 0 1 0) ∧ (∃ t b', exec .next overrun2 = .next t ∧ t.block = .live b') ∧
    (∃ t b', exec (.read 2) overrun2 = .next t ∧ t.block = .live b') ∧
    (∃ t b', exec .clear overrun2 = .next t ∧ t.block = .live b') ∧
    (∃ t b', exec .drain overrun2 = .next t ∧ t.block = .live b') :=
  ⟨rfl, ⟨_, _, rfl, rfl⟩, ⟨_, _, rfl, rfl⟩, ⟨_, _, rfl, rfl⟩, _, _, rfl, rfl⟩

theorem test_hyp_OnlyPushesChangeStorage :
    full2.block = .live (buf [1, 2] 0 0 1 0) ∧
    (∃ t b', exec (.push (byte 3)) full2 = .next t ∧ t.block = .live b' ∧ b'.storage ≠ (buf [1, 2] 0 0 1 0).storage) ∧
    (∃ t b', exec (.write [3]) full2 = .next t ∧ t.block = .live b' ∧ b'.storage ≠ (buf [1, 2] 0 0 1 0).storage) ∧
    (∃ t b', exec .construct full2 = .next t ∧ t.block = .live b' ∧ b'.storage ≠ (buf [1, 2] 0 0 1 0).storage) :=
  ⟨rfl, ⟨_, _, rfl, rfl, by decide⟩, ⟨_, _, rfl, rfl, by decide⟩, _, _, rfl, rfl, by decide⟩

theorem test_hyp_WriteSideIgnoresReadSide :
    full2.block = .live (buf [1, 2] 0 0 1 0) ∧ (∃ t b', exec (.push (byte 3)) full2 = .next t ∧ t.block = .live b') ∧
    (∃ t b', exec (.write [3, 4]) full2 = .next t ∧ t.block = .live b') := ⟨rfl, ⟨_, _, rfl, rfl⟩, _, _, rfl, rfl⟩

theorem test_hyp_ParametersNeverChange :
    (∃ t, step (full2.withOwner [.drive (command 0b011#3)]) = .next t) ∧ (∃ t, step (full2.withOwner [.destroy]) = .next t) :=
  ⟨⟨_, rfl⟩, _, rfl⟩

theorem test_hyp_StorageReadsWhatWasWritten : 0 < (cfg 1).capacity ∧ 3 < (cfg 4).capacity ∧ 2 ≠ 3 := by decide

theorem test_hyp_StorageFormIsCanonical :
    (slots 0 [1, 2]).wf = true ∧ (slots 1 [2]).wf = true ∧ slots 0 [1, 2] = (slots 1 [2]).write 0 (byte 1) := by decide

theorem test_hyp_ReservedCodesRefused :
    (full2.withOwner [.drive (command 0b111#3)]).owner = [.drive (command 0b111#3)] ∧ (command 0b111#3).rst = false ∧
    (command 0b111#3).cmdValid = true ∧ (command 0b111#3).cmdOp = 0b111#3 ∧ (command 0b000#3).cmdOp = 0b000#3 := by decide

theorem test_hyp_DecodeEncodeAgree :
    (∀ i ∈ [Instr.construct, .push (byte 255), .next, .clear, .drain, .read 1024, .write [0, 255]],
      i.wellFormed (cfg 4) = true) ∧
    decode (cfg 4) { command 0b101#3 with cmdLen := 2, src := [1] } = .ok (.read 2) ∧
    decode (cfg 4) { command 0b110#3 with cmdLen := 1, src := [1], cmdData := byte 9 } = .ok (.write [1]) ∧
    decode (cfg 4) { command 0b001#3 with rst := true } = .ok .construct := ⟨by decide, rfl, rfl, rfl⟩

theorem test_hyp_StepRunsTheDecodedCommand :
    (full2.withOwner [.drive (command 0b010#3), .destroy]).owner = .drive (command 0b010#3) :: [.destroy] ∧
    decode full2.config (command 0b010#3) = .ok .next ∧
    (∃ t, exec .next (full2.withOwner [.destroy]) = .next t) ∧ (∃ r, exec .next (absent0.withOwner []) = .refused r) ∧
    (∃ k, exec .next ((live 2 (buf [] 1 0 0 0)).withOwner []) = .fault (.valuelessSlot k)) ∧
    decode (cfg 0) (resetPorts (cfg 0)) = .ok .construct ∧
    (∃ f, exec .construct ((onBlock (cfg 0) .absent).withOwner []) = .fault (.constructionFailure f)) :=
  ⟨rfl, rfl, ⟨_, rfl⟩, ⟨_, rfl⟩, ⟨_, rfl⟩, rfl, _, rfl⟩

theorem test_hyp_IdleStepHoldsTheState :
    full2.owner = [] ∧ (full2.withOwner [.drive { command 0b010#3 with cmdValid := false }]).owner =
      [.drive { command 0b010#3 with cmdValid := false }] := ⟨rfl, rfl⟩

theorem test_hyp_ResetWinsOverCommand :
    (full2.withOwner [.drive { command 0b010#3 with rst := true }]).owner = [.drive { command 0b010#3 with rst := true }] := rfl

theorem test_hyp_StepKeepsInvariant :
    (full2.withOwner [.drive (command 0b010#3)]).Inv ∧ (∃ t, step (full2.withOwner [.drive (command 0b010#3)]) = .next t) :=
  ⟨inv_of rfl 2 0 (by decide), _, rfl⟩

theorem test_hyp_SoundStatesNeverFault :
    (full2.withOwner [.drive (command 0b100#3)]).Inv ∧
    ∃ t b, Host.Core.run core 1 (full2.withOwner [.drive (command 0b100#3)]) = .next t ∧ t.block = .live b :=
  ⟨inv_of rfl 2 0 (by decide), _, _, rfl, rfl⟩

theorem test_hyp_EveryCommandCompletes :
    (fresh 1).Inv ∧ full2.Inv ∧ full2.status = .live ∧
    ∀ i ∈ [Instr.construct, .push (byte 255), .next, .clear, .drain, .read 1024, .write [0, 255]],
      i.wellFormed full2.config = true := ⟨fresh_inv, full2_inv, rfl, by decide⟩

theorem test_hyp_WellFormedProgramsRun :
    (full2.withOwner [.drive (encode full2.config .next), .drive (encode full2.config (.read 1))]).Inv ∧ full2.status = .live ∧
    (∀ e ∈ [OwnerEvent.drive (encode full2.config .next), .drive (encode full2.config (.read 1))],
      ∃ i : Instr, i.wellFormed full2.config = true ∧ e = .drive (encode full2.config i)) := by
  refine ⟨inv_of rfl 2 0 (by decide), rfl, ?_⟩
  simp only [List.mem_cons, List.not_mem_nil, or_false]
  rintro e (rfl | rfl)
  · exact ⟨.next, by decide, rfl⟩
  · exact ⟨.read 1, by decide, rfl⟩

/-- Program 1's first three pushes: the third overwrites, and the ideal queue keeps the last two. -/
theorem envelope2 : InEnvelope (cfg 2) (buf [2, 1] 1 0 1 0) [byte 1, byte 2] := by
  have h0 : InEnvelope (cfg 2) (buf [] 0 0 0 0) [] := .start (b := buf [] 0 0 0 0) ⟨rfl, by decide⟩
  have h1 : InEnvelope (cfg 2) (buf [0] 1 0 0 0) _ := .push (v := byte 0) h0 rfl (by decide)
  have h2 : InEnvelope (cfg 2) (buf [0, 1] 0 0 1 0) _ := .push (v := byte 1) h1 rfl (by decide)
  exact .push (v := byte 2) h2 rfl (by decide)

/-- One slot: a push and the pop of it, across the wrap of both. -/
theorem envelope1 : InEnvelope (cfg 1) (buf [7] 0 0 1 1) [] := by
  have h0 : InEnvelope (cfg 1) (buf [] 0 0 0 0) [] := .start (b := buf [] 0 0 0 0) ⟨rfl, by decide⟩
  have h1 : InEnvelope (cfg 1) (buf [7] 0 0 1 0) _ := .push (v := byte 7) h0 rfl (by decide)
  exact .next (r := some (byte 7)) h1 rfl (by decide)

theorem test_hyp_EnvelopeIsBoundedQueue :
    (legalParameters overrun2.config = true ∧ legalCapacity overrun2.config = true ∧
      overrun2.block = .live (buf [2, 1] 1 0 1 0) ∧ InEnvelope overrun2.config (buf [2, 1] 1 0 1 0) [byte 1, byte 2]) ∧
    InEnvelope (cfg 1) (buf [7] 0 0 1 1) [] := ⟨⟨by decide, by decide, rfl, envelope2⟩, envelope1⟩

theorem test_hyp_EnvelopeDrainAndReadYieldTheQueue :
    (legalParameters overrun2.config = true ∧ legalCapacity overrun2.config = true ∧
      overrun2.block = .live (buf [2, 1] 1 0 1 0) ∧ InEnvelope overrun2.config (buf [2, 1] 1 0 1 0) [byte 1, byte 2]) ∧
    Instr.wellFormed overrun2.config (.read 1) = true ∧ Instr.wellFormed overrun2.config (.read 3) = true :=
  ⟨⟨by decide, by decide, rfl, envelope2⟩, by decide, by decide⟩

theorem test_hyp_LastCapacityValuesSurvive :
    legalParameters (cfg 2) = true ∧ legalCapacity (cfg 2) = true ∧ storageLegal (cfg 2) (buf [9, 8] 1 0 1 0) ∧
    (∀ v ∈ [byte 1, byte 2, byte 3], slotFits (cfg 2) v = true) ∧ [byte 1, byte 2, byte 3].length < 2 * (cfg 2).capacity ∧
    legalCapacity (cfg 1) = true ∧ [byte 1].length < 2 * (cfg 1).capacity :=
  ⟨by decide, by decide, ⟨rfl, by decide⟩, by decide, by decide, by decide, by decide⟩

theorem test_hyp_NotPushingWhileFullStaysInside :
    legalParameters (cfg 1) = true ∧ legalCapacity (cfg 1) = true ∧ InEnvelope (cfg 1) (buf [7] 0 0 1 1) [] ∧
    pending (cfg 1) (buf [7] 0 0 1 1) ≤ (cfg 1).capacity ∧ isFull (cfg 1) (buf [7] 0 0 1 1) = false ∧
    slotFits (cfg 1) (byte 8) = true ∧ (∃ b', b' = pushSlot (cfg 1) (byte 8) (buf [7] 0 0 1 1)) :=
  ⟨by decide, by decide, envelope1, by decide, by decide, by decide, _, rfl⟩

end Sys2Proof.Tests
end

section

namespace Sys2Proof.Proofs

open Sys2Proof Sys2Proof.Machine

/-- MemRead sees the storage through `Memory.read` alone. -/
theorem memRead_congr {m m' : Memory} {i : Nat} (h : m.read i = m'.read i) : memRead m i = memRead m' i := by
  simp only [memRead, h]

theorem memRead_memWrite_same {c : Config} {i : Nat} (m : Memory) (v : Slot) (h : i < c.capacity) :
    memRead (memWrite c m i v) i = .ok v := by
  rw [memWrite_of_lt m v h]
  exact memRead_ok.2 (Memory.read_write_same m i v)

theorem memRead_memWrite_other {c : Config} {i j : Nat} (m : Memory) (v : Slot) (h : j ≠ i) :
    memRead (memWrite c m i v) j = memRead m j :=
  memRead_congr (memWrite_read_other m v h)

/-- Settles O44: the written slot by `memRead_memWrite_same`, every other index by `memRead_memWrite_other`. -/
theorem storageReadsWhatWasWritten : Obligations.StorageReadsWhatWasWritten := by
  intro c m i v hi
  exact ⟨memRead_memWrite_same m v hi, fun _ hj => memRead_memWrite_other m v hj⟩

end Sys2Proof.Proofs
end

section

namespace Sys2Proof.Proofs

open Sys2Proof Sys2Proof.Machine

/-! The epoch difference `d` and the comparison `behind` (`spec/10_state.md` R27). -/

theorem epochs_eq_double {c : Config} (h : 1 ≤ c.epochBits) : epochs c = 2 * 2 ^ (c.epochBits - 1) :=
  (mul_pow_sub_one (by omega) 2).symm

/-- The model's difference of natural numbers is the integer difference of R27, reduced modulo `2^EPOCH_BITS`. -/
theorem epochGap_eq_emod {c : Config} {r w : Nat} (hr : r < epochs c) (hw : w < epochs c) :
    ((w : Int) - (r : Int)) % (epochs c : Nat) = (epochGap c r w : Int) := by
  rw [epochGap_of_lt hr hw]
  split
  · rw [Int.emod_eq_of_lt (by omega) (by omega)]
    omega
  · rw [← Int.add_emod_right, Int.emod_eq_of_lt (by omega) (by omega)]
    omega

/-- The difference as `EPOCH_BITS`-bit words compute it. -/
theorem toNat_ofNat_sub_ofNat (c : Config) (r w : Nat) :
    (BitVec.ofNat c.epochBits w - BitVec.ofNat c.epochBits r).toNat = epochGap c r w := by
  simp only [BitVec.toNat_sub, BitVec.toNat_ofNat, epochGap, epochs, Nat.add_mod_mod]
  rw [Nat.add_comm]

/-- `behind` is a difference that is not 0 and lies in the lower half of the epoch range: the reading between R27's bounds
and its bit and sign forms. -/
theorem behind_iff_lt_half {c : Config} {r w : Nat} :
    behind c r w = true ↔ epochGap c r w ≠ 0 ∧ epochGap c r w < 2 ^ (c.epochBits - 1) := by
  have := Nat.two_pow_pos (c.epochBits - 1)
  rw [behind_iff]
  omega

theorem testBit_epochGap_eq_false {c : Config} {r w : Nat} (h : 1 ≤ c.epochBits) :
    (epochGap c r w).testBit (c.epochBits - 1) = false ↔ epochGap c r w < 2 ^ (c.epochBits - 1) := by
  constructor
  · intro hbit
    by_contra hge
    have hlt : epochGap c r w < 2 ^ (c.epochBits - 1 + 1) := by
      rw [Nat.sub_add_cancel h]
      exact epochGap_lt
    rw [Nat.testBit_of_two_pow_le_and_two_pow_add_one_gt (Nat.le_of_not_lt hge) hlt] at hbit
    cases hbit
  · exact Nat.testBit_lt_two_pow

theorem behind_iff_toInt_pos {c : Config} {r w : Nat} (h : 1 ≤ c.epochBits) :
    behind c r w = true ↔ 0 < (BitVec.ofNat c.epochBits w - BitVec.ofNat c.epochBits r).toInt := by
  have hlt : epochGap c r w < epochs c := epochGap_lt
  have hhalf := epochs_eq_double h
  rw [behind_iff_lt_half, BitVec.toInt_eq_toNat_cond, toNat_ofNat_sub_ofNat, ← epochs]
  split <;> omega

theorem behind_self (c : Config) (e : Nat) : behind c e e = false :=
  Bool.eq_false_iff.2 fun h => behind_ne h rfl

theorem behind_incEpoch {c : Config} (h : 2 ≤ c.epochBits) (e : Nat) : behind c e (incEpoch c e) = true := by
  have hhalf : 2 ^ 1 ≤ 2 ^ (c.epochBits - 1) := Nat.pow_le_pow_right (by omega) (by omega)
  have hdouble := epochs_eq_double (c := c) (by omega)
  have hgap : epochGap c e (incEpoch c e) = 1 := by
    rw [epochGap_incEpoch, epochGap_self]
    exact Nat.mod_eq_of_lt (by omega)
  rw [behind_iff_lt_half, hgap]
  omega

/-- Settles O14: each reading of R27 by its lemma about the difference, `behind_iff_lt_half` between them. -/
theorem behindIsSignedDifference : Obligations.BehindIsSignedDifference := by
  intro c h r w hr hw
  have h1 : 1 ≤ c.epochBits := by omega
  refine ⟨epochGap_eq_emod hr hw, behind_iff, ?_, behind_iff_toInt_pos h1, ?_, behind_self c r, behind_incEpoch h r⟩
  · rw [testBit_epochGap_eq_false h1, behind_iff_lt_half]
  · intro h8
    rw [behind_iff, h8, show 2 ^ (8 - 1) - 1 = 127 from rfl]

/-! EMPTY is `pending = 0`, and a PUSH adds one to `pending` (`spec/10_state.md` R28, `spec/70_reset_and_hazards.md` R131). -/

theorem epochGap_eq_zero {c : Config} {r w : Nat} (hr : r < epochs c) (hw : w < epochs c) :
    epochGap c r w = 0 ↔ r = w := by
  rw [epochGap_of_lt hr hw]
  split <;> omega

theorem isEmpty_iff_pending {c : Config} {b : Buffer} (h : registersLegal c b) :
    isEmpty b = true ↔ pending c b = 0 := by
  constructor
  · intro he
    obtain ⟨hi, hE⟩ := isEmpty_eq_true.1 he
    have hpos : readPosition c b = writePosition c b := by rw [readPosition, writePosition, hi, hE]
    rw [pending_of_legal h, hpos, if_pos le_rfl, Nat.sub_self]
  · intro h0
    have ⟨_, hri, hwe, hre⟩ := h
    have hR : b.readIndex ≤ readPosition c b := Nat.le_add_left _ _
    have hRM := readPosition_lt h
    rcases pending_by_gap h with hsum | ⟨-, -, hsum⟩
    · have hgap : epochGap c b.readEpoch b.writeEpoch = 0 := by
        by_contra hne
        have := Nat.le_mul_of_pos_left c.capacity (Nat.pos_of_ne_zero hne)
        omega
      rw [hgap] at hsum
      exact isEmpty_eq_true.2 ⟨by omega, (epochGap_eq_zero hre hwe).1 hgap⟩
    · omega

theorem pending_push {c : Config} {b : Buffer} {v : Slot} (h : registersLegal c b) :
    pending c (pushSlot c v b) = (pending c b + 1) % positions c := by
  have hread : readPosition c (pushSlot c v b) = readPosition c b := rfl
  rw [pending, pending, writePosition_push h, hread, Nat.mod_add_mod, Nat.mod_add_mod]
  congr 1
  omega

theorem one_lt_positions {c : Config} {b : Buffer} (hp : legalParameters c = true) (h : registersLegal c b) :
    1 < positions c := by
  have hcap : 0 < c.capacity := Nat.zero_lt_of_lt h.1
  have hle : epochs c ≤ positions c := Nat.le_mul_of_pos_right _ hcap
  have := epochs_ge hp
  omega

/-- A PUSH leaves EMPTY true exactly when it brings `pending` round to 0, whatever EMPTY was (`spec/70_reset_and_hazards.md` R134). -/
theorem isEmpty_push_iff {c : Config} {b : Buffer} {v : Slot} (h : registersLegal c b) :
    isEmpty (pushSlot c v b) = true ↔ pending c b = positions c - 1 := by
  have hlt := pending_lt h
  rw [isEmpty_iff_pending (registersLegal_push h), pending_push h]
  constructor
  · intro h0
    by_contra hne
    rw [Nat.mod_eq_of_lt (by omega)] at h0
    omega
  · intro hlast
    rw [hlast, Nat.sub_add_cancel (by omega), Nat.mod_self]

theorem isEmpty_push_of_isEmpty {c : Config} {b : Buffer} {v : Slot} (hp : legalParameters c = true)
    (h : registersLegal c b) (he : isEmpty b = true) : isEmpty (pushSlot c v b) = false := by
  have h0 := (isEmpty_iff_pending h).1 he
  have := one_lt_positions hp h
  rw [Bool.eq_false_iff, ne_eq, isEmpty_push_iff h]
  omega

theorem isEmpty_zeroCursors (b : Buffer) : isEmpty (zeroCursors b) = true := rfl

theorem isEmpty_fresh : isEmpty Buffer.fresh = true := rfl

/-- CONSTRUCT, CLEAR and DRAIN end with zero cursors, so EMPTY holds on the buffer they leave. -/
theorem isEmpty_of_zeroing_command {i : Instr} {s t : State} {b : Buffer} (hi : i = .construct ∨ i = .clear ∨ i = .drain)
    (h : exec i s = .next t) (hb : t.block = .live b) : isEmpty b = true := by
  rcases hi with rfl | rfl | rfl
  · obtain ⟨-, -, rfl⟩ := exec_construct_next h
    cases hb
    exact isEmpty_fresh
  · obtain ⟨b0, -, rfl⟩ := exec_clear_next h
    cases hb
    exact isEmpty_zeroCursors b0
  · obtain ⟨_, b1, _, _, _, rfl⟩ := exec_drain_next h
    cases hb
    exact isEmpty_zeroCursors b1

/-- Settles O15: the registers' reading by `isEmpty_eq_true`, the commands that zero the cursors by
`isEmpty_of_zeroing_command`, and PUSH by its effect on `pending`. -/
theorem emptyConditionFollowsCommands : Obligations.EmptyConditionFollowsCommands := by
  refine ⟨fun b => isEmpty_eq_true, fun i s t b hi h hb => isEmpty_of_zeroing_command hi h hb, ?_⟩
  rintro c b _ v hp h rfl
  exact ⟨isEmpty_push_of_isEmpty hp h, fun _ => isEmpty_push_iff h⟩

/-! The jump (`spec/10_state.md` R30). -/

theorem catchUp_indices_eq {c : Config} {b : Buffer} (h : isOverrun c b = true) :
    (catchUp c b).readIndex = (catchUp c b).writeIndex := by
  rw [catchUp_readIndex, if_pos h, catchUp_writeIndex]

theorem isOverrun_of_indices_eq {c : Config} {b : Buffer} (h : b.readIndex = b.writeIndex) : isOverrun c b = false :=
  Bool.eq_false_iff.2 fun ho => absurd h (isOverrun_lt ho).ne

/-- Settles O17: the condition is its two conjuncts, and the jump makes the indices equal. -/
theorem overrunClearedByJump : Obligations.OverrunClearedByJump := by
  intro c b
  refine ⟨by simp [isOverrun], fun h => ?_⟩
  have heq := catchUp_indices_eq h
  exact ⟨heq, isOverrun_of_indices_eq heq⟩

end Sys2Proof.Proofs
end

section

namespace Sys2Proof.Proofs

open Sys2Proof Sys2Proof.Machine

/-! What a step does with a port sample that spells no operation (`spec/30_encoding.md` R64). -/

theorem decode_presented {p : Ports} (c : Config) (hrst : p.rst = false) (hvalid : p.cmdValid = true) :
    decode c p = decodeCommand c p := by
  simp [decode, hrst, hvalid]

theorem decodeCommand_reserved {p : Ports} (c : Config) (h : p.cmdOp = 0b000#3 ∨ p.cmdOp = 0b111#3) :
    decodeCommand c p = .error (.reservedCode p.cmdOp) := by
  rcases h with h | h
  · simp [decodeCommand, h]
  · simp [decodeCommand, h]

theorem step_drive {s : State} {p : Ports} {rest : List OwnerEvent} (ho : s.owner = .drive p :: rest) :
    step s = issue p (s.withOwner rest) := by
  simp only [step, ho, perform]

theorem issue_of_reject {s : State} {p : Ports} {r : Reject} (hd : decode s.config p = .error r)
    (hr : r ≠ .noCommand) : issue p s = .refused (.undecodable r) := by
  cases r with
  | noCommand => exact absurd rfl hr
  | _ => simp only [issue, hd]

/-- Settles O47: a presented reserved code is rejected by `decodeCommand_reserved`, and a sample that is rejected so is refused
by the step. -/
theorem reservedCodesRefused : Obligations.ReservedCodesRefused := by
  intro s p rest ho hrst hvalid hop
  have hd : decode (s.withOwner rest).config p = .error (.reservedCode p.cmdOp) := by
    rw [decode_presented _ hrst hvalid, decodeCommand_reserved _ hop]
  rw [step_drive ho, issue_of_reject hd (by simp)]

end Sys2Proof.Proofs
end

section

namespace Sys2Proof.Proofs

open Sys2Proof Sys2Proof.Machine

/-! Commands on an instance that is not `Live` (`spec/40_construct.md` R77). -/

theorem onLive_of_not_live {s : State} (h : s.status ≠ .live) (f : Buffer → Except Fault (Buffer × Result)) :
    onLive s f = .refused (.notLive s.status) := by
  unfold State.status at h ⊢
  unfold onLive
  cases hb : s.block with
  | absent => rfl
  | failed _ => rfl
  | live _ => simp [hb] at h

/-- A well-formed command passes every check on its operands, so what remains of it is its effect on a `Live` buffer. -/
theorem exec_eq_onLive {i : Instr} {s : State} (hi : i ≠ .construct) (hw : i.wellFormed s.config = true) :
    ∃ f, exec i s = onLive s f := by
  cases i with
  | construct => exact absurd rfl hi
  | push v =>
    have hfit : slotFits s.config v = true := hw
    exact ⟨_, by rw [exec, execPush, if_pos hfit]⟩
  | next => exact ⟨_, rfl⟩
  | clear => exact ⟨_, rfl⟩
  | drain => exact ⟨_, rfl⟩
  | read n =>
    obtain ⟨h8, hlen⟩ := Bool.and_eq_true_iff.1 hw
    exact ⟨_, by rw [exec, execRead, if_neg (by simp [h8]), if_neg (by simp [hlen])]⟩
  | write src =>
    obtain ⟨h8, hlen⟩ := Bool.and_eq_true_iff.1 hw
    exact ⟨_, by rw [exec, execWrite, if_neg (by simp [h8]), if_neg (by simp [hlen])]⟩

/-- A command that is not well-formed is refused whatever the status: the checks on operands come before `onLive`. -/
theorem exec_refused_of_not_wellFormed {i : Instr} {s : State} (hw : i.wellFormed s.config = false) :
    ∃ r, exec i s = .refused r := by
  cases i with
  | construct => cases hw
  | push v =>
    have hfit : slotFits s.config v = false := hw
    exact ⟨_, by rw [exec, execPush, if_neg (by simp [hfit])]⟩
  | next => cases hw
  | clear => cases hw
  | drain => cases hw
  | read n =>
    by_cases h8 : dataBitsIs8 s.config = false
    · exact ⟨_, by rw [exec, execRead, if_pos h8]⟩
    · have hlen : lengthFits s.config n = false := by simpa [Instr.wellFormed, h8] using hw
      exact ⟨_, by rw [exec, execRead, if_neg h8, if_pos hlen]⟩
  | write src =>
    by_cases h8 : dataBitsIs8 s.config = false
    · exact ⟨_, by rw [exec, execWrite, if_pos h8]⟩
    · have hlen : lengthFits s.config src.length = false := by simpa [Instr.wellFormed, h8] using hw
      exact ⟨_, by rw [exec, execWrite, if_neg h8, if_pos hlen]⟩

theorem exec_of_not_live {i : Instr} {s : State} (h : s.status ≠ .live) (hi : i ≠ .construct)
    (hw : i.wellFormed s.config = true) : exec i s = .refused (.notLive s.status) := by
  obtain ⟨f, hf⟩ := exec_eq_onLive hi hw
  rw [hf, onLive_of_not_live h]

theorem exec_refused_of_not_live {i : Instr} {s : State} (h : s.status ≠ .live) (hi : i ≠ .construct) :
    ∃ r, exec i s = .refused r := by
  cases hw : i.wellFormed s.config with
  | true => exact ⟨_, exec_of_not_live h hi hw⟩
  | false => exact exec_refused_of_not_wellFormed hw

theorem outputs_cmdReady_of_not_live {s : State} (h : s.status ≠ .live) : (outputs s).cmdReady = false :=
  beq_eq_false_iff_ne.2 h

theorem destroy_of_not_live {s : State} (h : s.status ≠ .live) : destroy s = s := by
  unfold State.status at h
  unfold destroy
  cases hb : s.block with
  | absent => rfl
  | failed _ => rfl
  | live _ => simp [hb] at h

/-- Settles O6: a well-formed command by `exec_of_not_live`, any other by the checks that come before the status. -/
theorem onlyLiveInstancesTakeCommands : Obligations.OnlyLiveInstancesTakeCommands := by
  intro s h
  exact ⟨fun i hi hw => exec_of_not_live h hi hw, fun i hi => exec_refused_of_not_live h hi,
    outputs_cmdReady_of_not_live h, destroy_of_not_live h⟩

end Sys2Proof.Proofs
end

section

namespace Sys2Proof.Proofs

open Sys2Proof Sys2Proof.Machine

/-! The advance of a pointer (`spec/41_push.md` R80, R81). -/

theorem wraps_iff_nextIndex_eq_zero {c : Config} {i : Nat} : wraps c i = true ↔ nextIndex c i = 0 := beq_iff_eq

theorem nextIndex_eq_succ_or_zero {c : Config} {i : Nat} (h : i < c.capacity) :
    nextIndex c i = if i < c.capacity - 1 then i + 1 else 0 := by
  rw [nextIndex_of_lt h]
  by_cases hlast : i = c.capacity - 1
  · rw [if_pos hlast, if_neg (by omega)]
  · rw [if_neg hlast, if_pos (by omega)]

/-- Settles O10: the advance by `nextIndex_eq_succ_or_zero`, the wrap by `wraps_iff`, and with one slot both of them at
index 0, which is then the last. -/
theorem indexAdvanceIsCircular : Obligations.IndexAdvanceIsCircular := by
  intro c i h
  refine ⟨rfl, nextIndex_eq_succ_or_zero h, wraps_iff_nextIndex_eq_zero, wraps_iff h, h, fun hone => ?_⟩
  have hwraps : wraps c 0 = true := (wraps_iff (by omega)).2 (by omega)
  exact ⟨by omega, wraps_iff_nextIndex_eq_zero.1 hwraps, hwraps⟩

theorem incEpoch_last (c : Config) : incEpoch c (2 ^ c.epochBits - 1) = 0 := by
  rw [incEpoch, epochs, Nat.sub_add_cancel Nat.one_le_two_pow, Nat.mod_self]

/-- The epoch of an advanced pointer, on either side, read off the index that the advance leaves. -/
theorem epoch_advance (c : Config) (i e : Nat) :
    (if wraps c i then incEpoch c e else e) = if nextIndex c i = 0 then (e + 1) % 2 ^ c.epochBits else e := by
  simp only [wraps_iff_nextIndex_eq_zero, incEpoch, epochs]

theorem pushSlot_writeEpoch_of_index (c : Config) (v : Slot) (b : Buffer) :
    (pushSlot c v b).writeEpoch =
      if (pushSlot c v b).writeIndex = 0 then (b.writeEpoch + 1) % 2 ^ c.epochBits else b.writeEpoch :=
  epoch_advance c b.writeIndex b.writeEpoch

/-- A NEXT that returns a value advances the read pointer from where the jump left it. -/
theorem popSlot_some {c : Config} {b b' : Buffer} {v : Slot} (h : popSlot c b = .ok (b', some v)) :
    b' = advanceRead c (catchUp c b) := by
  rcases popSlot_ok.1 h with ⟨-, -, hnone⟩ | ⟨-, hb, -⟩
  · cases hnone
  · exact hb

theorem popSlot_readEpoch_of_index {c : Config} {b b' : Buffer} {v : Slot} (h : popSlot c b = .ok (b', some v)) :
    b'.readEpoch = if b'.readIndex = 0 then (b.readEpoch + 1) % 2 ^ c.epochBits else b.readEpoch := by
  rw [popSlot_some h, advanceRead_readEpoch, advanceRead_readIndex, catchUp_readEpoch, epoch_advance]

/-- Settles O11: the increment at the last epoch by `incEpoch_last`, and each side's pointer by `epoch_advance`. -/
theorem epochCountsWraps : Obligations.EpochCountsWraps := by
  refine ⟨fun c e _ => ⟨rfl, incEpoch_last c, fun h8 => ?_⟩, ?_, ?_⟩
  · have hlast := incEpoch_last c
    rwa [h8] at hlast
  · rintro c b _ v rfl
    exact ⟨pushSlot_readEpoch, pushSlot_writeEpoch_of_index c v b⟩
  · intro c b b' v h
    obtain ⟨-, hwriteEpoch, -⟩ := popSlot_frame h
    exact ⟨hwriteEpoch, popSlot_readEpoch_of_index h⟩

/-! PUSH (`spec/41_push.md` R78, R79). -/

theorem exec_push_of_live {s : State} {b : Buffer} {v : Slot} (hb : s.block = .live b) (hv : slotFits s.config v = true) :
    exec (.push v) s = .next (s.complete (pushSlot s.config v b) .unit) := by
  rw [exec, execPush, if_pos hv, onLive_live hb, finish_ok]

theorem pushSlot_read_same {c : Config} {b : Buffer} (v : Slot) (h : b.writeIndex < c.capacity) :
    (pushSlot c v b).storage.read b.writeIndex = some v := by
  rw [pushSlot_storage, memWrite_of_lt _ _ h, Memory.read_write_same]

theorem pushSlot_read_other {c : Config} {b : Buffer} {i : Nat} (v : Slot) (h : i ≠ b.writeIndex) :
    (pushSlot c v b).storage.read i = b.storage.read i := by
  rw [pushSlot_storage, memWrite_read_other _ _ h]

/-- Settles O9: PUSH leaves `pushSlot`'s buffer, whose storage, write pointer and read pointer each have their lemma. -/
theorem pushStoresThenAdvances : Obligations.PushStoresThenAdvances := by
  intro s b v hb hi hv
  exact ⟨pushSlot s.config v b, exec_push_of_live hb (beq_iff_eq.2 hv), pushSlot_read_same v hi,
    fun _ hne => pushSlot_read_other v hne, pushSlot_writeIndex, pushSlot_writeEpoch_of_index s.config v b,
    pushSlot_readIndex, pushSlot_readEpoch⟩

end Sys2Proof.Proofs
end

section

namespace Sys2Proof.Proofs

open Sys2Proof Sys2Proof.Machine

/-! NEXT (`spec/42_next.md` R85 to R89). -/

/-- On a `Live` instance NEXT ends in the buffer and with the result of its effect on the buffer. -/
theorem exec_next_of_pop {s : State} {b b' : Buffer} {r : Option Slot} (hb : s.block = .live b)
    (hpop : popSlot s.config b = .ok (b', r)) : exec .next s = .next (s.complete b' (.opt r)) := by
  rw [exec, execNext, onLive_live hb, hpop, finish_ok]

/-- Settles O21: equal pointers are EMPTY, and NEXT on an empty buffer is `popSlot_of_empty`. -/
theorem nextOnEmptyReturnsNothing : Obligations.NextOnEmptyReturnsNothing := by
  intro s b hb hindex hepoch
  exact exec_next_of_pop hb (popSlot_of_empty (isEmpty_eq_true.2 ⟨hindex, hepoch⟩))

/-- On a sound buffer that is not empty NEXT returns the value at the read index that the catch-up step left. -/
theorem popSlot_of_sound {c : Config} {b : Buffer} (h : bufferSound c b) (he : isEmpty b = false) :
    ∃ v, b.storage.read (catchUp c b).readIndex = some v ∧
      popSlot c b = .ok (advanceRead c (catchUp c b), some v) := by
  obtain ⟨b', r, hpop⟩ := bufferSound_pop_ok h
  rcases popSlot_ok.1 hpop with ⟨hempty, -, -⟩ | ⟨-, rfl, v, hread, rfl⟩
  · rw [he] at hempty
    cases hempty
  · exact ⟨v, hread, hpop⟩

theorem exec_next_of_sound {s : State} {b : Buffer} (hs : s.Inv) (hb : s.block = .live b) (he : isEmpty b = false) :
    ∃ v, b.storage.read (catchUp s.config b).readIndex = some v ∧
      exec .next s = .next (s.complete (advanceRead s.config (catchUp s.config b)) (.opt (some v))) := by
  obtain ⟨-, -, hsound⟩ := hs.live hb
  obtain ⟨v, hread, hpop⟩ := popSlot_of_sound hsound he
  exact ⟨v, hread, exec_next_of_pop hb hpop⟩

/-- The epoch that the advance leaves, by the last index in place of `wraps`. -/
theorem advanceRead_readEpoch_of_lt {c : Config} {b : Buffer} (h : b.readIndex < c.capacity) :
    (advanceRead c b).readEpoch = if b.readIndex = c.capacity - 1 then incEpoch c b.readEpoch else b.readEpoch := by
  simp only [advanceRead_readEpoch, wraps_iff h]

/-- The advance after the catch-up step leaves the write pointer and the storage of the buffer before both. -/
theorem advanceRead_catchUp_frame (c : Config) (b : Buffer) :
    (advanceRead c (catchUp c b)).writeIndex = b.writeIndex ∧ (advanceRead c (catchUp c b)).writeEpoch = b.writeEpoch ∧
      (advanceRead c (catchUp c b)).storage = b.storage := by
  simp

/-- Settles O22: the value and the buffer by `exec_next_of_sound`, the epoch by `advanceRead_readEpoch_of_lt`, since the
catch-up step leaves the read index in range. -/
theorem nextReadsThenAdvances : Obligations.NextReadsThenAdvances := by
  intro s b hs hb he
  obtain ⟨v, hread, hexec⟩ := exec_next_of_sound hs hb he
  obtain ⟨-, -, hregisters, -, -⟩ := hs.live hb
  have hepoch := advanceRead_readEpoch_of_lt (catchUp_readIndex_lt hregisters)
  rw [catchUp_readEpoch] at hepoch
  exact ⟨_, v, hread, hexec, advanceRead_readIndex .., hepoch, advanceRead_catchUp_frame s.config b⟩

/-! The catch-up jump (`spec/42_next.md` R86, R87). -/

theorem isOverrun_iff_behind_and_lt {c : Config} {b : Buffer} :
    isOverrun c b = true ↔ behind c b.readEpoch b.writeEpoch = true ∧ b.readIndex < b.writeIndex :=
  (overrunClearedByJump c b).1

theorem catchUp_eq_ite (c : Config) (b : Buffer) :
    catchUp c b =
      if behind c b.readEpoch b.writeEpoch = true ∧ b.readIndex < b.writeIndex then { b with readIndex := b.writeIndex }
      else b := by
  simp only [catchUp, isOverrun_iff_behind_and_lt]

theorem isEmpty_of_isOverrun {c : Config} {b : Buffer} (h : isOverrun c b = true) : isEmpty b = false :=
  Bool.eq_false_iff.2 fun he => absurd (isEmpty_eq_true.1 he).1 (isOverrun_lt h).ne

/-- Settles O23: an overrun buffer is not empty, so `exec_next_of_sound` says what NEXT does, with the read index at the
write index. -/
theorem catchUpJumpsToWriteIndex : Obligations.CatchUpJumpsToWriteIndex := by
  refine ⟨catchUp_eq_ite, fun s b hs hb hbehind hlt => ?_⟩
  have hover : isOverrun s.config b = true := isOverrun_iff_behind_and_lt.2 ⟨hbehind, hlt⟩
  have hjump : (catchUp s.config b).readIndex = b.writeIndex := by rw [catchUp_readIndex, if_pos hover]
  obtain ⟨v, hread, hexec⟩ := exec_next_of_sound hs hb (isEmpty_of_isOverrun hover)
  rw [hjump] at hread
  refine ⟨_, v, hread, hexec, ?_, advanceRead_catchUp_frame s.config b⟩
  rw [advanceRead_readIndex, hjump]

end Sys2Proof.Proofs
end

section

namespace Sys2Proof.Proofs

open Sys2Proof Sys2Proof.Machine

/-! CLEAR (`spec/43_clear_drain.md` R94). -/

/-- No configuration has FULL on zeroed cursors: the writer is no epoch ahead. -/
theorem isFull_zeroCursors (c : Config) (b : Buffer) : isFull c (zeroCursors b) = false := by
  rw [Bool.eq_false_iff, ne_eq, isFull_iff, zeroCursors_readEpoch, zeroCursors_writeEpoch, epochGap_self]
  omega

theorem isOverrun_zeroCursors (c : Config) (b : Buffer) : isOverrun c (zeroCursors b) = false :=
  isOverrun_of_indices_eq rfl

theorem exec_clear_of_live {s : State} {b : Buffer} (hb : s.block = .live b) :
    exec .clear s = .next (s.complete (zeroCursors b) .unit) := by
  rw [exec, execClear, onLive_live hb, finish_ok]

/-- Settles O29: CLEAR leaves `zeroCursors`'s buffer, and each status condition has its lemma about that. -/
theorem clearZeroesTheCursors : Obligations.ClearZeroesTheCursors := by
  intro s b hb
  exact ⟨zeroCursors b, exec_clear_of_live hb, rfl, rfl, rfl, rfl, zeroCursors_storage b,
    isEmpty_zeroCursors b, isFull_zeroCursors s.config b, isOverrun_zeroCursors s.config b⟩

/-! A NEXT that returns a value lowers `pending` (`spec/42_next.md` R90): the catch-up step does not raise it, and the advance
lowers it by one. -/

theorem registersLegal_catchUp {c : Config} {b : Buffer} (h : registersLegal c b) : registersLegal c (catchUp c b) := by
  have hread := catchUp_readIndex_lt h
  obtain ⟨hwi, -, hwe, hre⟩ := h
  exact ⟨by simpa using hwi, hread, by simpa using hwe, by simpa using hre⟩

theorem registersLegal_advanceRead {c : Config} {b : Buffer} (h : registersLegal c b) :
    registersLegal c (advanceRead c b) := by
  obtain ⟨hwi, hri, hwe, hre⟩ := h
  refine ⟨hwi, nextIndex_lt (by omega), hwe, ?_⟩
  rw [advanceRead_readEpoch]
  split
  · exact incEpoch_lt
  · exact hre

/-- The jump skips as many pending positions as it moves the read index. -/
theorem pending_catchUp {c : Config} {b : Buffer} (h : registersLegal c b) :
    pending c (catchUp c b) + ((catchUp c b).readIndex - b.readIndex) = pending c b := by
  by_cases ho : isOverrun c b = true
  · obtain ⟨⟨hahead, -⟩, hlt⟩ := isOverrun_iff.1 ho
    rw [epochsAhead] at hahead
    have hbefore := pending_by_gap h
    have hafter := pending_by_gap (registersLegal_catchUp h)
    rw [catchUp_readEpoch, catchUp_writeEpoch, catchUp_writeIndex, catchUp_readIndex, if_pos ho] at hafter
    rw [catchUp_readIndex, if_pos ho]
    omega
  · rw [catchUp, if_neg ho, Nat.sub_self, Nat.add_zero]

/-- The jump needs different epochs, and leaves them. -/
theorem isEmpty_catchUp (c : Config) (b : Buffer) : isEmpty (catchUp c b) = isEmpty b := by
  by_cases ho : isOverrun c b = true
  · rw [isEmpty_of_isOverrun ho, Bool.eq_false_iff]
    intro he
    obtain ⟨-, hepochs⟩ := isEmpty_eq_true.1 he
    rw [catchUp_readEpoch, catchUp_writeEpoch] at hepochs
    exact behind_ne (isOverrun_behind ho) hepochs
  · rw [catchUp, if_neg ho]

theorem readPosition_advanceRead {c : Config} {b : Buffer} (h : registersLegal c b) :
    readPosition c (advanceRead c b) = (readPosition c b + 1) % positions c := by
  obtain ⟨-, hri, -, hre⟩ := h
  exact advance_position hri hre

theorem pending_advanceRead {c : Config} {b : Buffer} (h : registersLegal c b) (he : isEmpty b = false) :
    pending c (advanceRead c b) + 1 = pending c b := by
  have hne : pending c b ≠ 0 := by
    rw [ne_eq, ← isEmpty_iff_pending h, he]
    exact Bool.false_ne_true
  have hwrite : writePosition c (advanceRead c b) = writePosition c b := rfl
  have hw := writePosition_lt h
  have hr := readPosition_lt h
  have hread : readPosition c (advanceRead c b) =
      if readPosition c b + 1 < positions c then readPosition c b + 1 else readPosition c b + 1 - positions c := by
    rw [readPosition_advanceRead h, mod_of_lt_two (by omega)]
  rw [pending_of_legal h] at hne ⊢
  rw [pending_of_legal (registersLegal_advanceRead h), hwrite, hread]
  split_ifs at hne ⊢ <;> omega

theorem pending_pop_lt {c : Config} {b b' : Buffer} {v : Slot} (h : registersLegal c b)
    (hpop : popSlot c b = .ok (b', some v)) : pending c b' < pending c b := by
  rcases popSlot_ok.1 hpop with ⟨-, -, hnone⟩ | ⟨he, rfl, -⟩
  · cases hnone
  · have hadvance := pending_advanceRead (registersLegal_catchUp h) ((isEmpty_catchUp c b).trans he)
    have hjump := pending_catchUp h
    omega

/-! DRAIN (`spec/43_clear_drain.md` R97 to R99). -/

/-- A row of successful NEXT is no longer than what `pending` loses over it. -/
theorem pending_add_length_le_of_pops {c : Config} {b b' : Buffer} {vs : List Slot} (hp : Pops c b vs b')
    (h : registersLegal c b) : pending c b' + vs.length ≤ pending c b := by
  induction hp with
  | none => exact le_rfl
  | more hpop _ ih =>
    have hstep := pending_pop_lt h hpop
    have hrest := ih (registersLegal_pop h hpop)
    rw [List.length_cons]
    omega

/-- The model's bound of `M` turns is never what ends the loop: `pending` is below `M`, so the loop ends on an empty buffer. -/
theorem popUpTo_positions {c : Config} {b b' : Buffer} {vs : List Slot} (h : registersLegal c b)
    (hpop : popUpTo c (positions c) b = .ok (b', vs)) : Pops c b vs b' ∧ isEmpty b' = true := by
  obtain ⟨hpops, hstop⟩ := popUpTo_ok hpop
  refine ⟨hpops, ?_⟩
  rcases hstop with hall | ⟨-, he⟩
  · have hle := pending_add_length_le_of_pops hpops h
    have hlt := pending_lt h
    omega
  · exact he

/-- On a `Live` instance DRAIN is the loop and then CLEAR. -/
theorem exec_drain_of_popUpTo {s : State} {b b' : Buffer} {vs : List Slot} (hb : s.block = .live b)
    (hpop : popUpTo s.config (positions s.config) b = .ok (b', vs)) :
    exec .drain s = .next (s.complete (zeroCursors b') (.seq vs)) := by
  have hdrain := drainSlots_ok.2 ⟨b', hpop, rfl⟩
  rw [exec, execDrain, onLive_live hb, hdrain, finish_ok]

/-- Settles O31: the loop meets no fault on a sound buffer and ends on an empty one (`popUpTo_positions`), where NEXT returns
nothing; what CLEAR then leaves is as for O29. -/
theorem drainIsNextUntilNoneThenClear : Obligations.DrainIsNextUntilNoneThenClear := by
  intro s b hs hb
  obtain ⟨-, -, hsound⟩ := hs.live hb
  obtain ⟨b', vs, hpop⟩ := bufferSound_popUpTo (positions s.config) hsound
  obtain ⟨hpops, he⟩ := popUpTo_positions hsound.1 hpop
  obtain ⟨-, -, hstorage⟩ := hpops.frame
  exact ⟨vs, b', hpops, popSlot_of_empty he, exec_drain_of_popUpTo hb hpop, hstorage,
    isEmpty_zeroCursors b', isFull_zeroCursors s.config b', isOverrun_zeroCursors s.config b'⟩

end Sys2Proof.Proofs
end

section

namespace Sys2Proof.Proofs

open Sys2Proof Sys2Proof.Machine

/-! READ (`spec/44_bulk.md` R102 to R104). -/

/-- On a `Live` instance a well-formed READ is the loop, with the values of it as bytes. -/
theorem exec_read_of_popUpTo {s : State} {b b' : Buffer} {n : Nat} {vs : List Slot} (hb : s.block = .live b)
    (hw : Instr.wellFormed s.config (.read n) = true) (hpop : popUpTo s.config n b = .ok (b', vs)) :
    exec (.read n) s = .next (s.complete b' (.bytes vs.length (vs.map slotByte))) := by
  obtain ⟨h8, hlen⟩ := Bool.and_eq_true_iff.1 hw
  rw [exec, execRead, if_neg (by simp [h8]), if_neg (by simp [hlen]), onLive_live hb, readBytes, hpop]
  simp only [List.length_map, finish_ok]

/-- With `DATA_BITS` 8 a slot of the instance and its byte are the same bits. -/
theorem byteSlot_slotByte_of_fits {c : Config} {v : Slot} (h8 : dataBitsIs8 c = true) (hv : slotFits c v = true) :
    byteSlot (slotByte v) = v :=
  byteSlot_slotByte ((beq_iff_eq.1 hv).trans (beq_iff_eq.1 h8))

/-- Settles O33: the loop meets no fault on a sound buffer and stops by `popUpTo_ok`, for want of room or on an empty buffer;
the values it returned stood in the storage, so each fits a slot. -/
theorem readDeliversInOrder : Obligations.ReadDeliversInOrder := by
  intro s b n hs hb hw
  obtain ⟨-, -, hsound⟩ := hs.live hb
  have hstorage : storageLegal s.config b := hsound.2.1
  obtain ⟨h8, -⟩ := Bool.and_eq_true_iff.1 hw
  obtain ⟨b', vs, hpop⟩ := bufferSound_popUpTo n hsound
  obtain ⟨hpops, hstop⟩ := popUpTo_ok hpop
  have hbits : ∀ v ∈ vs, byteSlot (slotByte v) = v := fun v hv => byteSlot_slotByte_of_fits h8 (hpops.fit hstorage v hv)
  exact ⟨vs, b', hpops, hstop.imp_right (And.imp_right popSlot_of_empty), exec_read_of_popUpTo hb hw hpop,
    (List.map_congr_left hbits).trans (List.map_id' vs)⟩

/-! WRITE (`spec/44_bulk.md` R107, R109). -/

/-- On a `Live` instance a well-formed WRITE is repeated PUSH on the buffer. -/
theorem exec_write_of_live {s : State} {b : Buffer} {src : List Byte} (hb : s.block = .live b)
    (hw : Instr.wellFormed s.config (.write src) = true) :
    exec (.write src) s = .next (s.complete (pushAll s.config (src.map byteSlot) b) (.count src.length)) := by
  obtain ⟨h8, hlen⟩ := Bool.and_eq_true_iff.1 hw
  rw [exec, execWrite, if_neg (by simp [h8]), if_neg (by simp [hlen]), onLive_live hb, finish_ok]

theorem slotFits_byteSlot {c : Config} (h8 : dataBitsIs8 c = true) (x : Byte) : slotFits c (byteSlot x) = true :=
  beq_iff_eq.2 (beq_iff_eq.1 h8).symm

/-- The rest of a source that can be presented can be presented too. -/
theorem wellFormed_write_tail {c : Config} {x : Byte} {xs : List Byte} (hw : Instr.wellFormed c (.write (x :: xs)) = true) :
    Instr.wellFormed c (.write xs) = true := by
  obtain ⟨h8, hlen⟩ := Bool.and_eq_true_iff.1 hw
  exact Bool.and_eq_true_iff.2 ⟨h8, lengthFits_mono hlen (Nat.le_succ _)⟩

/-- Settles O35: `exec_write_of_live` for the whole source and, after the PUSH of its first byte, for the rest of it; `pushAll`
leaves one buffer on both ways. -/
theorem writeIsRepeatedPush : Obligations.WriteIsRepeatedPush := by
  intro s b hb
  refine ⟨fun hw => exec_write_of_live hb hw, fun x xs hw => ?_⟩
  obtain ⟨h8, -⟩ := Bool.and_eq_true_iff.1 hw
  have hpush := exec_push_of_live hb (slotFits_byteSlot h8 x)
  have hrest := exec_write_of_live (s := s.complete (pushSlot s.config (byteSlot x) b) .unit)
    (State.complete_block ..) (wellFormed_write_tail hw)
  exact ⟨_, _, _, hpush, hrest, State.complete_block .., exec_write_of_live hb hw⟩

end Sys2Proof.Proofs
end

section

namespace Sys2Proof.Proofs

open Sys2Proof Sys2Proof.Machine

/-! Every operation completes on a sound `Live` instance (`spec/60_exceptions.md` R113). -/

/-- What R113 says of one operation in one state. -/
def CompletesSoundly (i : Instr) (s : State) : Prop :=
  ∃ t, exec i s = .next t ∧ t.status = .live ∧ t.Inv

theorem exec_construct_of_legal {s : State} (hp : legalParameters s.config = true)
    (hc : legalCapacity s.config = true) : exec .construct s = .next (s.restart (.live Buffer.fresh)) := by
  rw [exec, execConstruct, if_neg (by simp [hp]), if_pos hc]

theorem capacity_pos_of_legal {c : Config} (h : legalCapacity c = true) : 0 < c.capacity := by
  simp only [legalCapacity, Bool.and_eq_true, decide_eq_true_eq] at h
  exact h.1

/-- CONSTRUCT needs legal parameters alone; what the instance held before does not matter. -/
theorem construct_completesSoundly {s : State} (hp : legalParameters s.config = true)
    (hc : legalCapacity s.config = true) : CompletesSoundly .construct s :=
  ⟨_, exec_construct_of_legal hp hc, rfl, hp, hc, bufferSound_fresh (capacity_pos_of_legal hc)⟩

/-- The other operations end in `State.complete`, which keeps the parameters, so a sound buffer is all that is asked of them. -/
theorem completesSoundly_of_buffer {i : Instr} {s : State} {b : Buffer} {r : Result}
    (hp : legalParameters s.config = true) (hc : legalCapacity s.config = true)
    (he : exec i s = .next (s.complete b r)) (hb : bufferSound s.config b) : CompletesSoundly i s :=
  ⟨_, he, State.complete_status .., hp, hc, hb⟩

/-- Every byte of a source becomes a slot of an instance on which WRITE exists. -/
theorem slotFits_of_mem_map_byteSlot {c : Config} {src : List Byte} {v : Slot} (h8 : dataBitsIs8 c = true)
    (hv : v ∈ src.map byteSlot) : slotFits c v = true := by
  obtain ⟨x, -, rfl⟩ := List.mem_map.1 hv
  exact slotFits_byteSlot h8 x

/-- Settles O55, operation by operation: the buffer that each leaves is sound. NEXT, DRAIN and READ meet no slot without a
value, because the invariant counts the pushes that filled the slots. -/
theorem everyCommandCompletes : Obligations.EveryCommandCompletes := by
  intro i s hs hlive hw
  obtain ⟨b, hb⟩ := status_live hlive
  obtain ⟨hp, hc, hsound⟩ := hs.live hb
  cases i with
  | construct => exact construct_completesSoundly hp hc
  | push v => exact completesSoundly_of_buffer hp hc (exec_push_of_live hb hw) (bufferSound_push hsound hw)
  | next =>
    obtain ⟨b', r, hpop⟩ := bufferSound_pop_ok hsound
    exact completesSoundly_of_buffer hp hc (exec_next_of_pop hb hpop) (bufferSound_pop hsound hpop)
  | clear => exact completesSoundly_of_buffer hp hc (exec_clear_of_live hb) (bufferSound_zero hsound)
  | drain =>
    obtain ⟨b', vs, hpop⟩ := bufferSound_popUpTo (positions s.config) hsound
    obtain ⟨hpops, -⟩ := popUpTo_ok hpop
    exact completesSoundly_of_buffer hp hc (exec_drain_of_popUpTo hb hpop) (bufferSound_zero (hpops.sound hsound))
  | read n =>
    obtain ⟨b', vs, hpop⟩ := bufferSound_popUpTo n hsound
    obtain ⟨hpops, -⟩ := popUpTo_ok hpop
    exact completesSoundly_of_buffer hp hc (exec_read_of_popUpTo hb hw hpop) (hpops.sound hsound)
  | write src =>
    obtain ⟨h8, -⟩ := Bool.and_eq_true_iff.1 hw
    have hfit : ∀ v ∈ src.map byteSlot, slotFits s.config v = true := fun _ hv => slotFits_of_mem_map_byteSlot h8 hv
    exact completesSoundly_of_buffer hp hc (exec_write_of_live hb hw) (bufferSound_pushAll hsound hfit)

end Sys2Proof.Proofs
end

section

namespace Sys2Proof.Proofs

open Sys2Proof Sys2Proof.Machine

/-! The buffer of an instance just constructed (`spec/10_state.md` R37), which is the one at reset
(`spec/70_reset_and_hazards.md` R126). -/

/-- CONSTRUCT leaves a buffer that CLEAR would not change, so what is known of CLEAR's registers holds of it. -/
theorem zeroCursors_fresh : zeroCursors Buffer.fresh = Buffer.fresh := rfl

theorem isFull_fresh (c : Config) : isFull c Buffer.fresh = false :=
  zeroCursors_fresh ▸ isFull_zeroCursors c Buffer.fresh

theorem isOverrun_fresh (c : Config) : isOverrun c Buffer.fresh = false :=
  zeroCursors_fresh ▸ isOverrun_zeroCursors c Buffer.fresh

theorem fresh_storage_read (i : Nat) : Buffer.fresh.storage.read i = none := rfl

/-- Settles O1: the block at reset is `Buffer.fresh`, and each status condition has its lemma about that, for any parameters. -/
theorem resetIsConstructedAndEmpty : Obligations.ResetIsConstructedAndEmpty :=
  ⟨rfl, Buffer.fresh, reset_block, rfl, rfl, rfl, rfl, fresh_storage_read,
    isEmpty_fresh, isFull_fresh _, isOverrun_fresh _⟩

end Sys2Proof.Proofs
end

section

namespace Sys2Proof.Proofs

open Sys2Proof Sys2Proof.Machine

/-! Decode and encode (`spec/30_encoding.md` sections 1, 2 and 5). -/

theorem decode_encode {c : Config} {i : Instr} (hw : i.wellFormed c = true) : decode c (encode c i) = .ok i := by
  cases i with
  | construct => exact Laws.RoundTrip.construct c hw
  | push v => exact Laws.RoundTrip.push v c hw
  | next => exact Laws.RoundTrip.next c hw
  | clear => exact Laws.RoundTrip.clear c hw
  | drain => exact Laws.RoundTrip.drain c hw
  | read n => exact Laws.RoundTrip.read n c hw
  | write src => exact Laws.RoundTrip.write src c hw

theorem decodeLength_ok {c : Config} {p : Ports} {i j : Instr} (h : decodeLength c p j = .ok i) :
    dataBitsIs8 c = true ∧ lengthFits c p.cmdLen = true ∧ i = j := by
  unfold decodeLength at h
  split at h
  · cases h
  · rename_i h8
    split at h <;> rename_i hlen <;> cases h
    exact ⟨by simpa using h8, by simpa using hlen, rfl⟩

/-- All that a presented command can spell: one row of the opcode table each (R63), with its operand off the ports. -/
theorem decodeCommand_ok {c : Config} {p : Ports} {i : Instr} (h : decodeCommand c p = .ok i) :
    (p.cmdOp = 0b001#3 ∧ slotFits c p.cmdData = true ∧ i = .push p.cmdData) ∨
    (p.cmdOp = 0b010#3 ∧ i = .next) ∨ (p.cmdOp = 0b011#3 ∧ i = .clear) ∨ (p.cmdOp = 0b100#3 ∧ i = .drain) ∨
    (p.cmdOp = 0b101#3 ∧ Instr.wellFormed c (.read p.cmdLen) = true ∧ i = .read p.cmdLen) ∨
    (p.cmdOp = 0b110#3 ∧ Instr.wellFormed c (.write p.src) = true ∧ p.cmdLen = p.src.length ∧ i = .write p.src) := by
  unfold decodeCommand at h
  split at h
  · split at h <;> cases h
    exact .inl ⟨‹_›, ‹_›, rfl⟩
  · cases h; exact .inr (.inl ⟨‹_›, rfl⟩)
  · cases h; exact .inr (.inr (.inl ⟨‹_›, rfl⟩))
  · cases h; exact .inr (.inr (.inr (.inl ⟨‹_›, rfl⟩)))
  · obtain ⟨h8, hn, rfl⟩ := decodeLength_ok h
    exact .inr (.inr (.inr (.inr (.inl ⟨‹_›, Bool.and_eq_true_iff.2 ⟨h8, hn⟩, rfl⟩))))
  · split at h
    · rename_i hlen
      obtain ⟨h8, hn, rfl⟩ := decodeLength_ok h
      rw [hlen] at hn
      exact .inr (.inr (.inr (.inr (.inr ⟨‹_›, Bool.and_eq_true_iff.2 ⟨h8, hn⟩, hlen, rfl⟩))))
    · cases h
  · cases h

theorem decode_ok {c : Config} {p : Ports} {i : Instr} (h : decode c p = .ok i) :
    (p.rst = true ∧ i = .construct) ∨ (p.rst = false ∧ p.cmdValid = true ∧ decodeCommand c p = .ok i) := by
  unfold decode at h
  split at h
  · cases h
    exact .inl ⟨‹_›, rfl⟩
  · rename_i hrst
    split at h
    · exact .inr ⟨by simpa using hrst, ‹_›, h⟩
    · cases h

/-- Settles O48: an operation's own sample by the round trip of its constructor; a sample that decodes is one row of
`decodeCommand_ok`, or CONSTRUCT. -/
theorem decodeEncodeAgree : Obligations.DecodeEncodeAgree := by
  refine ⟨fun c i hw => decode_encode hw, fun c p i h => ?_⟩
  rcases decode_ok h with ⟨hrst, rfl⟩ | ⟨hrst, hvalid, hcmd⟩
  · exact ⟨rfl, hrst, by simp, by simp, by simp, by simp⟩
  · rcases decodeCommand_ok hcmd with ⟨hop, hfit, rfl⟩ | ⟨hop, rfl⟩ | ⟨hop, rfl⟩ | ⟨hop, rfl⟩ | ⟨hop, hw, rfl⟩ |
      ⟨hop, hw, hlen, rfl⟩
    · exact ⟨hfit, hrst, fun _ => ⟨hvalid, hop⟩, by simp, by simp, by simp⟩
    · exact ⟨rfl, hrst, fun _ => ⟨hvalid, hop⟩, by simp, by simp, by simp⟩
    · exact ⟨rfl, hrst, fun _ => ⟨hvalid, hop⟩, by simp, by simp, by simp⟩
    · exact ⟨rfl, hrst, fun _ => ⟨hvalid, hop⟩, by simp, by simp, by simp⟩
    · exact ⟨hw, hrst, fun _ => ⟨hvalid, hop⟩, by simp, by simp, by simp⟩
    · exact ⟨hw, hrst, fun _ => ⟨hvalid, hop⟩, by simp, by simp, by simp [hlen]⟩

end Sys2Proof.Proofs
end

section

namespace Sys2Proof.Proofs

open Sys2Proof Sys2Proof.Machine

/-! What a step does with a port sample that spells an operation (`spec/30_encoding.md` section 1). -/

theorem step_of_decode {s : State} {p : Ports} {rest : List OwnerEvent} {i : Instr} (ho : s.owner = .drive p :: rest)
    (hd : decode s.config p = .ok i) : step s = settle (s.withOwner rest) (exec i (s.withOwner rest)) := by
  rw [step_drive ho]
  simp only [issue, State.withOwner_config, hd]

/-- Settles O49: the step is the settled outcome of `exec`, by the four cases of `settle`. -/
theorem stepRunsTheDecodedCommand : Obligations.StepRunsTheDecodedCommand := by
  intro s p rest i ho hd
  rw [step_of_decode ho hd]
  refine ⟨fun t h => ?_, fun r h => ?_, fun k h => ?_, fun f h => ?_⟩
  · rw [h, settle_next]
  · rw [h, settle_refused]
  · rw [h, settle_valuelessSlot]
  · rw [h, settle_constructionFailure, takeConstructionFailure]

theorem decode_of_rst {p : Ports} (c : Config) (h : p.rst = true) : decode c p = .ok .construct := if_pos h

/-- Settles O51: with `rst` at 1 the sample spells CONSTRUCT. -/
theorem resetWinsOverCommand : Obligations.ResetWinsOverCommand := by
  intro s p rest ho hrst
  exact step_of_decode ho (decode_of_rst _ hrst)

theorem decode_of_idle {p : Ports} (c : Config) (hrst : p.rst = false) (hvalid : p.cmdValid = false) :
    decode c p = .error .noCommand := by
  simp [decode, hrst, hvalid]

/-- Settles O50: an owner without events by definition, an idle sample by `decode_of_idle`. -/
theorem idleStepHoldsTheState : Obligations.IdleStepHoldsTheState := by
  intro s
  refine ⟨fun ho => by simp only [step, ho], fun p rest ho hrst hvalid => ?_⟩
  rw [step_drive ho]
  simp only [issue, decode_of_idle _ hrst hvalid]

/-! What `exec` answering at all says of the operation and the state. -/

/-- An operation other than CONSTRUCT that is not refused can be presented, and the instance is `Live` (R77). -/
theorem live_and_wellFormed_of_not_refused {i : Instr} {s : State} (hi : i ≠ .construct)
    (h : ∀ r, exec i s ≠ .refused r) : s.status = .live ∧ i.wellFormed s.config = true := by
  constructor
  · by_contra hlive
    obtain ⟨r, hr⟩ := exec_refused_of_not_live hlive hi
    exact h r hr
  · by_contra hw
    obtain ⟨r, hr⟩ := exec_refused_of_not_wellFormed (Bool.eq_false_iff.2 hw)
    exact h r hr

theorem drainSlots_error {c : Config} {b : Buffer} {e : Fault} (h : drainSlots c b = .error e) :
    ∃ k, e = .valuelessSlot k := by
  unfold drainSlots at h
  split at h <;> cases h
  exact popUpTo_error ‹_›

theorem readBytes_error {c : Config} {n : Nat} {b : Buffer} {e : Fault} (h : readBytes c n b = .error e) :
    ∃ k, e = .valuelessSlot k := by
  unfold readBytes at h
  split at h <;> cases h
  exact popUpTo_error ‹_›

/-- CONSTRUCT has the one fault of the block; the popping operations stop in the safety net alone (R125), and the others do
not stop. -/
theorem exec_fault {i : Instr} {s : State} {e : Fault} (h : exec i s = .fault e) :
    i = .construct ∨ ∃ k, e = .valuelessSlot k := by
  by_cases hi : i = .construct
  · exact .inl hi
  · right
    obtain ⟨hlive, hw⟩ := live_and_wellFormed_of_not_refused (s := s) hi (by simp [h])
    obtain ⟨b, hb⟩ := status_live hlive
    cases i with
    | construct => exact absurd rfl hi
    | push v => rw [exec_push_of_live hb hw] at h; cases h
    | next =>
      obtain ⟨b, -, hf⟩ := onLive_fault h
      split at hf <;> cases hf
      exact popSlot_error ‹_›
    | clear => rw [exec_clear_of_live hb] at h; cases h
    | drain =>
      obtain ⟨b, -, hf⟩ := onLive_fault h
      split at hf <;> cases hf
      exact drainSlots_error ‹_›
    | read n =>
      obtain ⟨h8, hlen⟩ := Bool.and_eq_true_iff.1 hw
      rw [exec, execRead, if_neg (by simp [h8]), if_neg (by simp [hlen])] at h
      obtain ⟨b, -, hf⟩ := onLive_fault h
      split at hf <;> cases hf
      exact readBytes_error ‹_›
    | write src => rw [exec_write_of_live hb hw] at h; cases h

theorem exec_constructionFailure {i : Instr} {s : State} {f : ConstructionFailure}
    (h : exec i s = .fault (.constructionFailure f)) :
    i = .construct ∧ legalCapacity s.config = false ∧ f = { code := 1, capacity := s.config.capacity } := by
  rcases exec_fault h with rfl | ⟨k, hk⟩
  · obtain ⟨-, hc, hf⟩ := exec_construct_fault h
    exact ⟨rfl, hc, by simpa [constructionFailureCode] using hf⟩
  · cases hk

/-! The invariant, step by step. -/

theorem destroy_of_live {s : State} {b : Buffer} (hb : s.block = .live b) : destroy s = s.restart .absent := by
  simp only [destroy, hb]

theorem inv_withOwner {s : State} (hs : s.Inv) (o : List OwnerEvent) : (s.withOwner o).Inv := hs

theorem inv_destroy {s : State} (hs : s.Inv) : (destroy s).Inv := by
  by_cases hlive : s.status = .live
  · obtain ⟨b, hb⟩ := status_live hlive
    rw [destroy_of_live hb]
    trivial
  · rwa [destroy_of_not_live hlive]

theorem exec_keeps_inv {i : Instr} {s t : State} (hs : s.Inv) (h : exec i s = .next t) : t.Inv := by
  by_cases hi : i = .construct
  · subst hi
    obtain ⟨hp, hc, rfl⟩ := exec_construct_next h
    exact ⟨hp, hc, bufferSound_fresh (capacity_pos_of_legal hc)⟩
  · obtain ⟨hlive, hw⟩ := live_and_wellFormed_of_not_refused (s := s) hi (by simp [h])
    obtain ⟨u, hu, -, hinv⟩ := everyCommandCompletes i s hs hlive hw
    rw [h] at hu
    cases hu
    exact hinv

theorem inv_takeConstructionFailure {i : Instr} {s : State} {f : ConstructionFailure}
    (h : exec i s = .fault (.constructionFailure f)) : (takeConstructionFailure f s).Inv :=
  (exec_constructionFailure h).2

/-- Settles O53, along what a step can do: an operation by `exec_keeps_inv`, and its failure by what CONSTRUCT records. -/
theorem stepKeepsInvariant : Obligations.StepKeepsInvariant := by
  intro s t hs h
  rcases step_next h with ⟨-, rfl⟩ | ⟨rest, -, rfl⟩ | ⟨p, rest, -, -, rfl⟩ | ⟨p, rest, i, -, -, he⟩ |
    ⟨p, rest, i, f, -, -, he, rfl⟩
  · exact hs
  · exact inv_destroy (inv_withOwner hs rest)
  · exact inv_withOwner hs rest
  · exact exec_keeps_inv (inv_withOwner hs rest) he
  · exact inv_takeConstructionFailure he

/-- Settles O52: the parameters at reset are legal, and a fresh buffer is sound. -/
theorem invariantAtReset : Obligations.InvariantAtReset :=
  ⟨by decide, by decide, bufferSound_fresh (by decide)⟩

/-! Runs. -/

/-- How a run may end: in a state with `P`, never in a fault, and in a refusal only where `R` allows one. -/
def EndsIn (P : State → Prop) (R : Prop) : Host.Outcome State Fault Refusal → Prop
  | .next t => P t
  | .fault _ => False
  | .refused _ => R

theorem run_succ_of_next {M : Host.Core} {k : Nat} {s t : M.State} (h : M.step s = .next t) :
    M.run (k + 1) s = M.run k t := by
  rw [Host.Core.run, h]

theorem run_succ_of_refused {M : Host.Core} {k : Nat} {s : M.State} {r : M.Refusal} (h : M.step s = .refused r) :
    M.run (k + 1) s = .refused r := by
  rw [Host.Core.run, h]

/-- What every step from a state with `P` ends in, every run does: the induction over a run's length. -/
theorem run_endsIn {P : State → Prop} {R : Prop} (hstep : ∀ s, P s → EndsIn P R (step s)) (k : Nat) {s : State}
    (hs : P s) : EndsIn P R (Host.Core.run core k s) := by
  induction k generalizing s with
  | zero => exact hs
  | succ k ih =>
    have h := hstep s hs
    cases hst : step s with
    | next t =>
      rw [hst] at h
      rw [run_succ_of_next (M := core) hst]
      exact ih h
    | fault e =>
      rw [hst] at h
      exact h.elim
    | refused r =>
      rw [hst] at h
      rwa [run_succ_of_refused (M := core) hst]

theorem step_fault {s : State} {e : Fault} (h : step s = .fault e) :
    ∃ rest i k, exec i (s.withOwner rest) = .fault (.valuelessSlot k) := by
  unfold step at h
  split at h
  · cases h
  · rename_i event rest ho
    cases event with
    | destroy => cases h
    | drive p =>
      simp only [perform, issue] at h
      split at h
      · rename_i i hd
        obtain ⟨he, k, rfl⟩ := settle_eq_fault h
        exact ⟨rest, i, k, he⟩
      · cases h
      · cases h

theorem exec_ne_valuelessSlot {i : Instr} {s : State} (hs : s.Inv) (k : Nat) : exec i s ≠ .fault (.valuelessSlot k) := by
  intro h
  by_cases hi : i = .construct
  · subst hi
    obtain ⟨-, -, he⟩ := exec_construct_fault h
    cases he
  · obtain ⟨hlive, hw⟩ := live_and_wellFormed_of_not_refused (s := s) hi (by simp [h])
    obtain ⟨t, ht, -⟩ := everyCommandCompletes i s hs hlive hw
    rw [h] at ht
    cases ht

theorem step_endsIn_inv {s : State} (hs : s.Inv) : EndsIn State.Inv True (step s) := by
  cases h : step s with
  | next t => exact stepKeepsInvariant s t hs h
  | fault e =>
    obtain ⟨rest, i, k, he⟩ := step_fault h
    exact exec_ne_valuelessSlot (inv_withOwner hs rest) k he
  | refused r => trivial

/-- Settles O54: a run keeps the invariant and meets no fault, step by step; a sound buffer's registers are in range. -/
theorem soundStatesNeverFault : Obligations.SoundStatesNeverFault := by
  intro s k hs
  have hrun := run_endsIn (fun _ => step_endsIn_inv) k hs
  constructor
  · intro e h
    rwa [h] at hrun
  · intro t b h hb
    rw [h] at hrun
    obtain ⟨-, -, hregisters, -⟩ := State.Inv.live hrun hb
    exact ⟨hregisters.1, catchUp_readIndex_lt hregisters⟩

/-- A sound `Live` instance whose owner presents well-formed operations and nothing else. -/
def WellPlanned (s : State) : Prop :=
  s.Inv ∧ s.status = .live ∧ ∀ e ∈ s.owner, ∃ i : Instr, i.wellFormed s.config = true ∧ e = .drive (encode s.config i)

/-- The owner's next sample decodes to the operation it presents, and that completes. -/
theorem step_endsIn_wellPlanned {s : State} (hs : WellPlanned s) : EndsIn WellPlanned False (step s) := by
  obtain ⟨hinv, hlive, hplan⟩ := hs
  cases ho : s.owner with
  | nil =>
    rw [(idleStepHoldsTheState s).1 ho]
    exact ⟨hinv, hlive, hplan⟩
  | cons e rest =>
    obtain ⟨i, hw, rfl⟩ := hplan e (by simp [ho])
    obtain ⟨t, ht, htlive, htinv⟩ := everyCommandCompletes i (s.withOwner rest) hinv hlive hw
    obtain ⟨hconfig, howner⟩ := exec_keeps ht
    rw [step_of_decode ho (decode_encode hw), ht]
    refine ⟨htinv, htlive, ?_⟩
    rw [hconfig, howner]
    exact fun e he => hplan e (by rw [ho]; exact List.mem_cons_of_mem _ he)

/-- Settles O56: well-planned states keep being so, and each is `Live`. -/
theorem wellFormedProgramsRun : Obligations.WellFormedProgramsRun := by
  intro s k hinv hlive hplan
  have hrun := run_endsIn (fun _ => step_endsIn_wellPlanned) k (s := s) ⟨hinv, hlive, hplan⟩
  unfold SafeRun
  cases h : Host.Core.run core k s with
  | next t =>
    rw [h] at hrun
    obtain ⟨-, htlive, -⟩ := hrun
    simp [successfulEnd, htlive]
  | fault e =>
    rw [h] at hrun
    exact hrun.elim
  | refused r =>
    rw [h] at hrun
    exact hrun.elim

/-- Settles O43, along what a step can do: no case of it touches the parameters. -/
theorem parametersNeverChange : Obligations.ParametersNeverChange := by
  intro s t h
  rcases step_next h with ⟨-, rfl⟩ | ⟨rest, -, rfl⟩ | ⟨p, rest, -, -, rfl⟩ | ⟨p, rest, i, -, -, he⟩ |
    ⟨p, rest, i, f, -, -, -, rfl⟩
  · rfl
  · exact destroy_config _
  · rfl
  · exact (exec_keeps he).1
  · rfl

end Sys2Proof.Proofs
end

section

namespace Sys2Proof.Proofs

open Sys2Proof Sys2Proof.Machine

/-! The modular registers as counters (`spec/10_state.md` R34, `spec/70_reset_and_hazards.md` R131): what `pending` and the epoch
difference are of the two counts of `tracedBy`. -/

theorem mod_add_sub_mod {m x y : Nat} (hm : 0 < m) (h : y ≤ x) : (x % m + (m - y % m % m)) % m = (x - y) % m := by
  have hlt := Nat.mod_lt y hm
  have hdiv := Nat.div_add_mod y m
  rw [Nat.mod_mod, Nat.mod_add_mod]
  calc (x + (m - y % m)) % m = (x - y + m * (y / m + 1)) % m := by congr 1; rw [Nat.mul_add]; omega
    _ = (x - y) % m := Nat.add_mul_mod_self_left ..

theorem mod_ne_add_mod {m d : Nat} (x : Nat) (h0 : 0 < d) (hd : d < m) : x % m ≠ (x + d) % m := by
  intro h
  have hcancel : 0 ≡ d [MOD m] := Nat.ModEq.add_left_cancel' x h
  rw [Nat.ModEq, Nat.zero_mod, Nat.mod_eq_of_lt hd] at hcancel
  omega

theorem position_of_count (c : Config) (n : Nat) :
    n / c.capacity % epochs c * c.capacity + n % c.capacity = n % positions c := by
  rw [positions, Nat.mul_comm (epochs c), Nat.mod_mul, Nat.mul_comm, Nat.add_comm]

theorem pending_of_tracedBy {c : Config} {b : Buffer} {p g : Nat} (hc : 0 < c.capacity) (h : tracedBy c b p g) :
    pending c b = (p - g) % positions c := by
  obtain ⟨hgp, hwi, hwe, hri, hre, -⟩ := h
  rw [pending, writePosition, readPosition, hwi, hwe, hri, hre, position_of_count, position_of_count]
  exact mod_add_sub_mod (Nat.mul_pos (epochs_pos c) hc) hgp

theorem epochsAhead_of_tracedBy {c : Config} {b : Buffer} {p g : Nat} (h : tracedBy c b p g) :
    epochsAhead c b = (p / c.capacity - g / c.capacity) % epochs c := by
  obtain ⟨hgp, -, hwe, -, hre, -⟩ := h
  rw [epochsAhead, epochGap, hwe, hre]
  exact mod_add_sub_mod (epochs_pos c) (Nat.div_le_div_right hgp)

theorem registersLegal_of_tracedBy {c : Config} {b : Buffer} {p g : Nat} (hc : 0 < c.capacity) (h : tracedBy c b p g) :
    registersLegal c b := by
  obtain ⟨-, hwi, hwe, hri, hre, -⟩ := h
  rw [registersLegal, hwi, hwe, hri, hre]
  exact ⟨Nat.mod_lt _ hc, Nat.mod_lt _ hc, Nat.mod_lt _ (epochs_pos c), Nat.mod_lt _ (epochs_pos c)⟩

theorem tracedBy_advanceRead {c : Config} {b : Buffer} {p g : Nat} (h : tracedBy c b p g) (hlt : g < p) :
    tracedBy c (advanceRead c b) p (g + 1) := by
  obtain ⟨-, hwi, hwe, hri, hre, hst⟩ := h
  refine ⟨hlt, hwi, hwe, ?_, ?_, hst⟩
  · rw [advanceRead_readIndex, hri, nextIndex_count]
  · rw [advanceRead_readEpoch, hri, hre, epoch_count]

end Sys2Proof.Proofs
end

section

namespace Sys2Proof.Proofs

open Sys2Proof Sys2Proof.Machine

/-! The ideal queue, by its positions. -/

/-- On a queue within its depth, the push drops as many elements as do not fit beside the new one. -/
theorem idealPush_eq_drop {depth : Nat} {q : List Slot} (v : Slot) (h : q.length ≤ depth) :
    idealPush depth q v = q.drop (q.length + 1 - depth) ++ [v] := by
  unfold idealPush
  split
  · rw [show q.length + 1 - depth = 0 by omega, List.drop_zero]
  · rw [show q.length + 1 - depth = 1 by omega, List.drop_one]

/-! The invariant of the envelope (`spec/70_reset_and_hazards.md` R132). -/

/-- The buffer after `p` pushes, with the read pointer at position `g` and at most one epoch behind, and the ideal queue of the
same commands: its elements are the last of what the `p` pushes stored, as many as are pending and stand in a slot. -/
structure EnvelopeCounts (c : Config) (b : Buffer) (q : List Slot) (p g : Nat) : Prop where
  parameters : legalParameters c = true
  capacity : 0 < c.capacity
  traced : tracedBy c b p g
  storage : storageLegal c b
  ahead : p / c.capacity ≤ g / c.capacity + 1
  length : q.length = min (p - g) c.capacity
  content : ∀ k v, q[k]? = some v → b.storage.read ((p - q.length + k) % c.capacity) = some v

namespace EnvelopeCounts

variable {c : Config} {b : Buffer} {q : List Slot} {v : Slot} {p g : Nat}

theorem order (h : EnvelopeCounts c b q p g) : g ≤ p := h.traced.1

theorem registers (h : EnvelopeCounts c b q p g) : registersLegal c b := registersLegal_of_tracedBy h.capacity h.traced

theorem sound (h : EnvelopeCounts c b q p g) : bufferSound c b := ⟨h.registers, h.storage, p, g, h.traced⟩

theorem length_le (h : EnvelopeCounts c b q p g) : q.length ≤ c.capacity := by
  have := h.length
  omega

theorem epochsAhead_eq (h : EnvelopeCounts c b q p g) : epochsAhead c b = p / c.capacity - g / c.capacity := by
  have hahead := h.ahead
  have hepochs := epochs_ge h.parameters
  rw [epochsAhead_of_tracedBy h.traced, Nat.mod_eq_of_lt (by omega)]

theorem epochsAhead_le (h : EnvelopeCounts c b q p g) : epochsAhead c b ≤ 1 := by
  have hahead := h.ahead
  rw [h.epochsAhead_eq]
  omega

theorem pending_bound (h : EnvelopeCounts c b q p g) : p - g < 2 * c.capacity := by
  have hahead := Nat.mul_le_mul_left c.capacity h.ahead
  have hp := Nat.div_add_mod p c.capacity
  have hg := Nat.div_add_mod g c.capacity
  have hlt := Nat.mod_lt p h.capacity
  rw [Nat.mul_add] at hahead
  omega

theorem pending_eq (h : EnvelopeCounts c b q p g) : pending c b = p - g := by
  have hbound := h.pending_bound
  have hpositions : 4 * c.capacity ≤ positions c := Nat.mul_le_mul_right _ (epochs_ge h.parameters)
  rw [pending_of_tracedBy h.capacity h.traced, Nat.mod_eq_of_lt (by omega)]

theorem isEmpty_iff (h : EnvelopeCounts c b q p g) : isEmpty b = true ↔ q = [] := by
  have hlength := h.length
  have hc := h.capacity
  rw [isEmpty_iff_pending h.registers, h.pending_eq, ← List.length_eq_zero_iff]
  omega

/-- OVERRUN is a queue that has dropped: with the writer one epoch ahead and past the read index, more than `CAPACITY` pending. -/
theorem isOverrun_iff (h : EnvelopeCounts c b q p g) : isOverrun c b = true ↔ c.capacity < p - g := by
  obtain ⟨hgp, hwi, -, hri, -, -⟩ := h.traced
  have hhalf := epochs_half_ge h.parameters
  have hahead := h.ahead
  have hp := Nat.div_add_mod p c.capacity
  have hg := Nat.div_add_mod g c.capacity
  have hplt := Nat.mod_lt p h.capacity
  have hglt := Nat.mod_lt g h.capacity
  rw [Machine.isOverrun_iff, h.epochsAhead_eq, hwi, hri]
  rcases Nat.eq_or_lt_of_le (Nat.div_le_div_right (c := c.capacity) hgp) with hsame | hnext
  · rw [← hsame] at hp ⊢
    omega
  · have hone : p / c.capacity = g / c.capacity + 1 := by omega
    rw [hone] at hp ⊢
    rw [Nat.mul_add] at hp
    omega

theorem start (hp : legalParameters c = true) (hc : 0 < c.capacity) (h : storageLegal c b) :
    EnvelopeCounts c (zeroCursors b) [] 0 0 where
  parameters := hp
  capacity := hc
  traced := by simp [tracedBy]
  storage := h
  ahead := by omega
  length := by simp
  content := by simp

theorem content_push (h : EnvelopeCounts c b q p g) {k : Nat} {w : Slot}
    (hk : (idealPush c.capacity q v)[k]? = some w) :
    (pushSlot c v b).storage.read ((p + 1 - (idealPush c.capacity q v).length + k) % c.capacity) = some w := by
  have hlength := h.length
  have hwi : b.writeIndex = p % c.capacity := h.traced.2.1
  rw [idealPush_eq_drop v h.length_le] at hk ⊢
  rw [List.length_append, List.length_drop, List.length_singleton]
  rcases Nat.lt_or_ge k (q.length - (q.length + 1 - c.capacity)) with hold | hnew
  · rw [List.getElem?_append_left (by simpa using hold), List.getElem?_drop] at hk
    have hread := h.content _ _ hk
    have hslot : p + 1 - (q.length - (q.length + 1 - c.capacity) + 1) + k =
        p - q.length + (q.length + 1 - c.capacity + k) := by omega
    have hdist := mod_ne_add_mod (m := c.capacity) (p - q.length + (q.length + 1 - c.capacity + k))
      (d := q.length - (q.length + 1 - c.capacity + k)) (by omega) (by omega)
    rw [show p - q.length + (q.length + 1 - c.capacity + k) + (q.length - (q.length + 1 - c.capacity + k)) = p by omega]
      at hdist
    rw [hslot, pushSlot_read_other v (by rwa [hwi]), hread]
  · have hlast : k = (q.drop (q.length + 1 - c.capacity)).length := by
      have := (List.getElem?_eq_some_iff.1 hk).1
      simp only [List.length_append, List.length_drop, List.length_singleton] at this ⊢
      omega
    rw [hlast, List.getElem?_concat_length] at hk
    cases hk
    rw [hlast, List.length_drop, show p + 1 - (q.length - (q.length + 1 - c.capacity) + 1) +
      (q.length - (q.length + 1 - c.capacity)) = p by omega, ← hwi]
    exact pushSlot_read_same v h.registers.1

theorem push (h : EnvelopeCounts c b q p g) (hv : slotFits c v = true) (ha : epochsAhead c (pushSlot c v b) ≤ 1) :
    EnvelopeCounts c (pushSlot c v b) (idealPush c.capacity q v) (p + 1) g where
  parameters := h.parameters
  capacity := h.capacity
  traced := tracedBy_push h.traced h.registers.1
  storage := (bufferSound_push h.sound hv).2.1
  ahead := by
    have hahead := h.ahead
    have hepochs := epochs_ge h.parameters
    have hstep : (p + 1) / c.capacity ≤ p / c.capacity + 1 := by
      rw [Nat.succ_div]
      split <;> omega
    rw [epochsAhead_of_tracedBy (tracedBy_push h.traced h.registers.1), Nat.mod_eq_of_lt (by omega)] at ha
    omega
  length := by
    have hlength := h.length
    have horder := h.order
    have hc := h.capacity
    rw [idealPush_eq_drop v h.length_le, List.length_append, List.length_drop, List.length_singleton]
    omega
  content := fun _ _ hk => h.content_push hk

/-- The jump brings the read pointer to the oldest element that still stands in a slot. -/
theorem caughtUp (h : EnvelopeCounts c b q p g) : EnvelopeCounts c (catchUp c b) q p (p - q.length) := by
  have hlength := h.length
  have horder := h.order
  by_cases ho : isOverrun c b = true
  · have hlong := h.isOverrun_iff.1 ho
    have hq : q.length = c.capacity := by omega
    obtain ⟨r, rfl⟩ : ∃ r, p = c.capacity + r := ⟨p - c.capacity, by omega⟩
    obtain ⟨-, hwi, hwe, -, hre, hst⟩ := h.traced
    have hdiv : (c.capacity + r) / c.capacity = r / c.capacity + 1 := Nat.add_div_left r h.capacity
    have hahead := h.ahead
    have hle : g / c.capacity ≤ r / c.capacity := Nat.div_le_div_right (by omega)
    have hepoch : r / c.capacity = g / c.capacity := by omega
    rw [hq, Nat.add_sub_cancel_left]
    refine { h with traced := ⟨by omega, ?_, ?_, ?_, ?_, ?_⟩, storage := ?_, ahead := by omega, length := by omega,
                    content := ?_ }
    · rw [catchUp_writeIndex, hwi]
    · rw [catchUp_writeEpoch, hwe]
    · rw [catchUp_readIndex, if_pos ho, hwi, Nat.add_mod_left]
    · rw [catchUp_readEpoch, hre, hepoch]
    · rwa [catchUp_storage]
    · simpa [storageLegal] using h.storage
    · simpa using h.content
  · have hg : p - q.length = g := by
      have := h.isOverrun_iff.not.1 ho
      omega
    rw [catchUp, if_neg ho, hg]
    exact h

theorem advance (h : EnvelopeCounts c b (v :: q) p g) (hcaught : (v :: q).length = p - g) :
    b.storage.read b.readIndex = some v ∧ EnvelopeCounts c (advanceRead c b) q p (g + 1) := by
  have horder := h.order
  rw [List.length_cons] at hcaught
  constructor
  · have hread := h.content 0 v rfl
    rwa [List.length_cons, show p - (q.length + 1) + 0 = g by omega, ← h.traced.2.2.2.1] at hread
  · refine { h with traced := tracedBy_advanceRead h.traced (by omega), ahead := ?_, length := ?_, content := ?_ }
    · have hahead := h.ahead
      have hle : g / c.capacity ≤ (g + 1) / c.capacity := Nat.div_le_div_right (by omega)
      omega
    · have hle := h.length_le
      rw [List.length_cons] at hle
      omega
    · intro k w hk
      have hread := h.content (k + 1) w hk
      rwa [List.length_cons, show p - (q.length + 1) + (k + 1) = p - q.length + k by omega] at hread

/-- NEXT answers the head of the ideal queue and leaves its tail. -/
theorem pop (h : EnvelopeCounts c b q p g) :
    ∃ b' g', popSlot c b = .ok (b', q.head?) ∧ EnvelopeCounts c b' q.tail p g' := by
  cases q with
  | nil => exact ⟨b, g, popSlot_of_empty (h.isEmpty_iff.2 rfl), h⟩
  | cons v q =>
    have hcaught := h.caughtUp
    have hlen : (v :: q).length = p - (p - (v :: q).length) := by
      have := h.length
      omega
    obtain ⟨hread, hnext⟩ := hcaught.advance hlen
    have he : isEmpty b = false := Bool.eq_false_iff.2 fun he => absurd (h.isEmpty_iff.1 he) (by simp)
    rw [catchUp_storage] at hread
    exact ⟨_, _, popSlot_ok.2 (.inr ⟨he, rfl, v, hread, rfl⟩), hnext⟩

end EnvelopeCounts

/-- Every buffer inside the envelope has its counters: the induction over the commands that reached it. -/
theorem envelopeCounts_of_inEnvelope {c : Config} {b : Buffer} {q : List Slot} (hp : legalParameters c = true)
    (hc : 0 < c.capacity) (h : InEnvelope c b q) : ∃ p g, EnvelopeCounts c b q p g := by
  induction h with
  | start hst => exact ⟨0, 0, .start hp hc hst⟩
  | push _ hv ha ih =>
    obtain ⟨p, g, hcounts⟩ := ih
    exact ⟨p + 1, g, hcounts.push hv ha⟩
  | next _ hpop _ ih =>
    obtain ⟨p, g, hcounts⟩ := ih
    obtain ⟨b', g', hpop', hcounts'⟩ := hcounts.pop
    rw [hpop] at hpop'
    cases hpop'
    exact ⟨p, g', hcounts'⟩

theorem inEnvelope_pop {c : Config} {b : Buffer} {q : List Slot} (hp : legalParameters c = true) (hc : 0 < c.capacity)
    (h : InEnvelope c b q) : ∃ b', popSlot c b = .ok (b', q.head?) ∧ InEnvelope c b' q.tail := by
  obtain ⟨p, g, hcounts⟩ := envelopeCounts_of_inEnvelope hp hc h
  obtain ⟨b', g', hpop, hcounts'⟩ := hcounts.pop
  exact ⟨b', hpop, .next h hpop hcounts'.epochsAhead_le⟩

/-- Settles O57: NEXT by `inEnvelope_pop`, and the conditions and the count by the counters of the buffer. -/
theorem envelopeIsBoundedQueue : Obligations.EnvelopeIsBoundedQueue := by
  intro s b q hp hc hb h
  have hcap := capacity_pos_of_legal hc
  obtain ⟨b', hpop, h'⟩ := inEnvelope_pop hp hcap h
  obtain ⟨p, g, hcounts⟩ := envelopeCounts_of_inEnvelope hp hcap h
  have hbound := hcounts.pending_bound
  rw [hcounts.pending_eq]
  exact ⟨⟨b', exec_next_of_pop hb hpop, h'⟩, hcounts.isEmpty_iff, hcounts.length, by omega, hcounts.isOverrun_iff⟩

/-- Repeated NEXT takes the oldest elements of the ideal queue, as many as it is asked for. -/
theorem inEnvelope_popUpTo {c : Config} {b : Buffer} {q : List Slot} (hp : legalParameters c = true)
    (hc : 0 < c.capacity) (h : InEnvelope c b q) (n : Nat) :
    ∃ b', popUpTo c n b = .ok (b', q.take n) ∧ InEnvelope c b' (q.drop n) := by
  induction n generalizing b q with
  | zero => exact ⟨b, by simp [popUpTo], by simpa using h⟩
  | succ n ih =>
    obtain ⟨b1, hpop, h1⟩ := inEnvelope_pop hp hc h
    cases q with
    | nil => exact ⟨b1, by simp [popUpTo, hpop], h1⟩
    | cons v q =>
      obtain ⟨b2, hrest, h2⟩ := ih h1
      exact ⟨b2, by simpa [popUpTo, hpop] using by rw [hrest]; rfl, h2⟩

theorem inEnvelope_drain {c : Config} {b : Buffer} {q : List Slot} (hp : legalParameters c = true)
    (hc : 0 < c.capacity) (h : InEnvelope c b q) :
    ∃ b', popUpTo c (positions c) b = .ok (b', q) ∧ InEnvelope c (zeroCursors b') [] := by
  obtain ⟨p, g, hcounts⟩ := envelopeCounts_of_inEnvelope hp hc h
  obtain ⟨b', hpop, h'⟩ := inEnvelope_popUpTo hp hc h (positions c)
  obtain ⟨_, _, hcounts'⟩ := envelopeCounts_of_inEnvelope hp hc h'
  have hle : q.length ≤ positions c := hcounts.length_le.trans (Nat.le_mul_of_pos_left _ (epochs_pos c))
  rw [List.take_of_length_le hle] at hpop
  exact ⟨b', hpop, .start hcounts'.storage⟩

/-- Settles O58: DRAIN has turns for every element (`inEnvelope_drain`), READ as many as it is asked for. -/
theorem envelopeDrainAndReadYieldTheQueue : Obligations.EnvelopeDrainAndReadYieldTheQueue := by
  intro s b q hp hc hb h
  have hcap := capacity_pos_of_legal hc
  constructor
  · obtain ⟨b', hpop, h'⟩ := inEnvelope_drain hp hcap h
    exact ⟨_, exec_drain_of_popUpTo hb hpop, h'⟩
  · intro n hw
    obtain ⟨b', hpop, h'⟩ := inEnvelope_popUpTo hp hcap h n
    rw [← List.length_take]
    exact ⟨b', exec_read_of_popUpTo hb hw hpop, h'⟩

end Sys2Proof.Proofs
end

section

namespace Sys2Proof.Proofs

open Sys2Proof Sys2Proof.Machine

/-! The status conditions of legal registers, by `pending` and the epoch difference (`spec/10_state.md` section 4,
`spec/70_reset_and_hazards.md` R131). -/

/-- A pending run of `CAPACITY` fills the distance of one epoch exactly: no other epoch difference leaves room for it. -/
theorem isFull_iff_pending {c : Config} {b : Buffer} (hp : legalParameters c = true) (h : registersLegal c b) :
    isFull c b = true ↔ pending c b = c.capacity := by
  have hgap := pending_by_gap h
  have hpositions : 4 * c.capacity ≤ positions c := Nat.mul_le_mul_right _ (epochs_ge hp)
  obtain ⟨hwi, hri, -, -⟩ := h
  rw [isFull_iff]
  constructor
  · rintro ⟨hindex, hone⟩
    rw [hone] at hgap
    omega
  · intro hpending
    rcases hgap with hsum | ⟨-, -, hsum⟩
    · rcases Nat.lt_trichotomy (epochGap c b.readEpoch b.writeEpoch) 1 with hzero | hone | hmore
      · rw [Nat.lt_one_iff.1 hzero] at hsum
        omega
      · rw [hone] at hsum
        exact ⟨by omega, hone⟩
      · have := Nat.mul_le_mul_right c.capacity (Nat.succ_le_of_lt hmore)
        rw [Nat.succ_mul] at this
        omega
    · omega

/-- Settles O16: the epoch difference as integers by `epochGap_eq_emod`, the count by `isFull_iff_pending`. -/
theorem fullIsPendingCapacity : Obligations.FullIsPendingCapacity := by
  intro c b hp h
  refine ⟨?_, isFull_iff_pending hp h⟩
  rw [isFull_iff, ← epochs, epochGap_eq_emod h.2.2.2 h.2.2.1]
  norm_cast

theorem epochsAhead_of_isFull {c : Config} {b : Buffer} (h : isFull c b = true) : epochsAhead c b = 1 := (isFull_iff.1 h).2

/-- Settles O18: EMPTY and FULL differ in the epochs, and OVERRUN from both in the indices. -/
theorem statusConditionsExclusive : Obligations.StatusConditionsExclusive := by
  intro c b hp h
  have hcap : 0 < c.capacity := Nat.zero_lt_of_lt h.1
  refine ⟨fun ⟨he, hf⟩ => ?_, fun ⟨he, ho⟩ => ?_, fun ⟨hf, ho⟩ => ?_⟩
  · rw [isFull_iff_pending hp h, (isEmpty_iff_pending h).1 he] at hf
    omega
  · rw [isEmpty_of_isOverrun ho] at he
    cases he
  · rw [isOverrun_of_indices_eq (isFull_iff.1 hf).1] at ho
    cases ho

/-- Settles O27: `pending` is below `M`, and EMPTY and PUSH have their lemmas about it. -/
theorem pendingCountsPushes : Obligations.PendingCountsPushes := by
  intro c b h
  have hcap : 0 < c.capacity := Nat.zero_lt_of_lt h.1
  have hzero : registersLegal c (zeroCursors b) := ⟨hcap, hcap, epochs_pos c, epochs_pos c⟩
  refine ⟨pending_lt h, (isEmpty_iff_pending h).symm, (isEmpty_iff_pending hzero).1 (isEmpty_zeroCursors b), ?_⟩
  rintro v _ rfl
  exact pending_push h

/-- Settles O13: `M` pushes bring the write position round to where it was, and its registers with it. -/
theorem pushesOfAllPositionsAlias : Obligations.PushesOfAllPositionsAlias := by
  intro c b vs h hlength
  obtain ⟨h', hri, hre, hposition⟩ := pushAll_cursors (vs := vs) h
  rw [hlength, ← epochs, ← positions, Nat.add_mod_right, Nat.mod_eq_of_lt (writePosition_lt h)] at hposition
  obtain ⟨hwi, hwe⟩ := writePosition_inj h h' hposition
  exact ⟨hwi, hwe, hri, hre, by rw [isEmpty, isEmpty, hwi, hwe, hri, hre]⟩

/-- One epoch ahead is within the range of `behind` for every legal `EPOCH_BITS`, so the indices decide OVERRUN. -/
theorem isOverrun_of_one_ahead {c : Config} {b : Buffer} (hp : legalParameters c = true) (ha : epochsAhead c b = 1) :
    isOverrun c b = true ↔ b.readIndex < b.writeIndex := by
  have := epochs_half_ge hp
  rw [isOverrun_iff, ha]
  omega

/-- Settles O12: the slot is the one at both indices; the indices after the advance decide OVERRUN, and at the last slot the
second epoch rules out EMPTY and FULL. -/
theorem overwriteWhileFull : Obligations.OverwriteWhileFull := by
  rintro c b _ v hp h hfull rfl
  obtain ⟨hindex, -⟩ := isFull_iff.1 hfull
  have hahead := epochsAhead_of_isFull hfull
  obtain ⟨hwi, hri, -, -⟩ := pushSlot_fields (v := v) h.1
  have hepochs := epochs_ge hp
  refine ⟨hindex ▸ pushSlot_read_same v h.1, fun hlt => ?_, fun hlast => ?_⟩
  · rw [if_neg (by omega)] at hwi
    have ha : epochsAhead c (pushSlot c v b) = 1 := by rw [epochsAhead_push h.1, if_neg (by omega), hahead]
    refine ⟨(isOverrun_of_one_ahead hp ha).2 ?_, ha⟩
    rw [hwi, hri]
    omega
  · rw [if_pos hlast] at hwi
    have ha : epochsAhead c (pushSlot c v b) = 2 := by
      rw [epochsAhead_push h.1, if_pos hlast, hahead, Nat.mod_eq_of_lt (by omega)]
    refine ⟨hwi, by rw [hri, hindex, hlast], ha, ?_, ?_, ?_⟩
    · rw [Bool.eq_false_iff]
      intro ho
      have hlt := isOverrun_lt ho
      omega
    · rw [Bool.eq_false_iff]
      intro he
      have hsame := (isEmpty_eq_true.1 he).2
      rw [epochsAhead, hsame, epochGap_self] at ha
      omega
    · rw [Bool.eq_false_iff]
      intro hf
      have hone := epochsAhead_of_isFull hf
      omega

/-- Settles O25: half the range is beyond `behind`, and without OVERRUN the catch-up step changes nothing. -/
theorem halfRangeTakesNoJump : Obligations.HalfRangeTakesNoJump := by
  intro c b hhalf
  have hover : isOverrun c b = false := by
    have := Nat.two_pow_pos (c.epochBits - 1)
    rw [Bool.eq_false_iff, ne_eq, isOverrun_iff]
    omega
  refine ⟨hover, fun b' v hpop => ?_⟩
  rcases popSlot_ok.1 hpop with ⟨-, -, hnone⟩ | ⟨-, -, w, hread, hw⟩
  · cases hnone
  · cases hw
    rwa [catchUp_readIndex, if_neg (by simp [hover])] at hread

/-- Settles O26: with one slot both indices are 0, so OVERRUN cannot hold, and every advance wraps. -/
theorem singleSlotNeverJumps : Obligations.SingleSlotNeverJumps := by
  intro c b b' v hone h hpop
  obtain ⟨hwi, hri, -, -⟩ := h
  have hread0 : b.readIndex = 0 := by omega
  have hover : isOverrun c b = false := isOverrun_of_indices_eq (by omega)
  rcases popSlot_ok.1 hpop with ⟨-, -, hnone⟩ | ⟨-, rfl, w, hread, hw⟩
  · cases hnone
  · cases hw
    rw [catchUp, if_neg (by simp [hover])] at hread ⊢
    rw [hread0] at hread
    refine ⟨hover, hread, ?_, ?_⟩
    · rw [advanceRead_readIndex, nextIndex_of_lt hri, if_pos (by omega)]
    · rw [advanceRead_readEpoch_of_lt hri, if_pos (by omega)]

/-- The two moves of a NEXT that returns a value, by what each takes off `pending`. -/
theorem pending_pop {c : Config} {b b' : Buffer} {v : Slot} (h : registersLegal c b) (hpop : popSlot c b = .ok (b', some v)) :
    pending c b' + 1 = pending c (catchUp c b) := by
  rcases popSlot_ok.1 hpop with ⟨-, -, hnone⟩ | ⟨he, rfl, -⟩
  · cases hnone
  · exact pending_advanceRead (registersLegal_catchUp h) ((isEmpty_catchUp c b).trans he)

/-- With the indices equal, as the jump leaves them, `pending` is whole epochs. -/
theorem pending_catchUp_of_isOverrun {c : Config} {b : Buffer} (h : registersLegal c b) (ho : isOverrun c b = true) :
    pending c (catchUp c b) = epochsAhead c b * c.capacity := by
  have hgap := pending_by_gap (registersLegal_catchUp h)
  rw [catchUp_indices_eq ho, catchUp_readEpoch, catchUp_writeEpoch] at hgap
  rw [epochsAhead]
  omega

/-- Settles O28: the jump takes off its length (`pending_catchUp`), the advance one. -/
theorem nextLowersPending : Obligations.NextLowersPending := by
  intro c b b' v h hpop
  have hadvance := pending_pop h hpop
  have hjump := pending_catchUp h
  rw [catchUp_readIndex] at hjump
  refine ⟨pending_pop_lt h hpop, fun hover => ?_, fun hover => ?_⟩
  · rw [if_neg (by simp [hover])] at hjump
    omega
  · have hwhole := pending_catchUp_of_isOverrun h hover
    rw [if_pos hover] at hjump
    exact ⟨by omega, by omega⟩

/-- From registers with the writer at most one epoch ahead and the read index not below the write index, an advance of the
read pointer brings no OVERRUN: it passes the write index in its own epoch, or leaves that epoch. -/
theorem isOverrun_advanceRead {c : Config} {b : Buffer} (hp : legalParameters c = true) (h : registersLegal c b)
    (ha : epochsAhead c b ≤ 1) (hover : isOverrun c b = false) : isOverrun c (advanceRead c b) = false := by
  obtain ⟨-, hri, hwe, hre⟩ := h
  have hepochs := epochs_half hp
  have hhalf := epochs_half_ge hp
  rw [Bool.eq_false_iff, ne_eq, isOverrun_iff] at hover ⊢
  rw [epochsAhead, advanceRead_readEpoch_of_lt hri, advanceRead_writeEpoch, advanceRead_writeIndex, advanceRead_readIndex,
    nextIndex_of_lt hri]
  by_cases hlast : b.readIndex = c.capacity - 1
  · rw [if_pos hlast, epochGap_incEpoch_left hre hwe]
    split <;> omega
  · rw [if_neg hlast, if_neg hlast, ← epochsAhead]
    omega

/-- Settles O24: the jump clears OVERRUN (O17) and keeps the epochs, and the advance after it brings none. -/
theorem nextLeavesNoOverrunInEnvelope : Obligations.NextLeavesNoOverrunInEnvelope := by
  intro c b b' v hp hsound ha hpop
  obtain ⟨h, -, -⟩ := hsound
  rw [popSlot_some hpop]
  refine isOverrun_advanceRead hp (registersLegal_catchUp h) (by simpa [epochsAhead] using ha) ?_
  by_cases hover : isOverrun c b = true
  · exact isOverrun_of_indices_eq (catchUp_indices_eq hover)
  · rw [catchUp, if_neg hover]
    exact Bool.eq_false_iff.2 hover

end Sys2Proof.Proofs
end

section

namespace Sys2Proof.Proofs

open Sys2Proof Sys2Proof.Machine

/-! Staying inside the envelope (`spec/70_reset_and_hazards.md` section 4). -/

theorem isOverrun_of_pending_le {c : Config} {b : Buffer} {q : List Slot} {p g : Nat} (h : EnvelopeCounts c b q p g)
    (hle : pending c b ≤ c.capacity) : isOverrun c b = false := by
  rw [h.pending_eq] at hle
  rw [Bool.eq_false_iff, ne_eq, h.isOverrun_iff]
  omega

/-- Settles O60: below `CAPACITY` pending there is room for one more, in the ideal queue and in the writer's next epoch. -/
theorem notPushingWhileFullStaysInside : Obligations.NotPushingWhileFullStaysInside := by
  rintro c b _ q v hp hc henv hle hfull hv rfl
  obtain ⟨p, g, h⟩ := envelopeCounts_of_inEnvelope hp (capacity_pos_of_legal hc) henv
  have hroom : p - g < c.capacity := by
    have hne := (isFull_iff_pending hp h.registers).not.1 (by simp [hfull])
    rw [h.pending_eq] at hne hle
    omega
  have horder := h.order
  have hlength := h.length
  have htraced := tracedBy_push (v := v) h.traced h.registers.1
  have hahead : epochsAhead c (pushSlot c v b) ≤ 1 := by
    have hdiv : (p + 1) / c.capacity ≤ (g + c.capacity) / c.capacity := Nat.div_le_div_right (by omega)
    rw [Nat.add_div_right g h.capacity] at hdiv
    rw [epochsAhead_of_tracedBy htraced]
    exact (Nat.mod_le _ _).trans (by omega)
  have hpending : pending c (pushSlot c v b) ≤ c.capacity := by
    rw [(h.push hv hahead).pending_eq]
    omega
  have hideal : idealPush c.capacity q v = q ++ [v] := if_pos (by omega)
  exact ⟨hideal ▸ .push henv hv hahead, hpending, isOverrun_of_pending_le (h.push hv hahead) hpending⟩

/-! Pushes into a cleared buffer (`spec/43_clear_drain.md` section DRAIN). -/

theorem pushAll_append (c : Config) (vs ws : List Slot) (b : Buffer) :
    pushAll c (vs ++ ws) b = pushAll c ws (pushAll c vs b) := by
  induction vs generalizing b with
  | nil => rfl
  | cons v vs ih => exact ih _

theorem tracedBy_pushAll {c : Config} {b : Buffer} {p g : Nat} (hc : 0 < c.capacity) (h : tracedBy c b p g)
    (vs : List Slot) : tracedBy c (pushAll c vs b) (p + vs.length) g := by
  induction vs generalizing b p with
  | nil => exact h
  | cons v vs ih =>
    rw [List.length_cons, ← Nat.add_assoc, Nat.add_right_comm]
    exact ih (tracedBy_push h (registersLegal_of_tracedBy hc h).1)

/-- Fewer than `2 * CAPACITY` pushes after a CLEAR stay inside the envelope, and the ideal queue keeps the last `CAPACITY` of
them: an induction over the last push. -/
theorem inEnvelope_pushAll {c : Config} {b : Buffer} {vs : List Slot} (hc : 0 < c.capacity) (hst : storageLegal c b)
    (hv : ∀ v ∈ vs, slotFits c v = true) (hlength : vs.length < 2 * c.capacity) :
    InEnvelope c (pushAll c vs (zeroCursors b)) (vs.drop (vs.length - c.capacity)) := by
  induction vs using List.reverseRecOn with
  | nil => simpa [pushAll] using InEnvelope.start hst
  | append_singleton vs v ih =>
    have hcursors : tracedBy c (zeroCursors b) 0 0 := by simp [tracedBy]
    have htraced := tracedBy_pushAll hc hcursors (vs ++ [v])
    rw [List.length_append, List.length_singleton] at hlength ⊢
    have hahead : epochsAhead c (pushAll c (vs ++ [v]) (zeroCursors b)) ≤ 1 := by
      have hdiv := Nat.div_lt_of_lt_mul (Nat.mul_comm 2 c.capacity ▸ hlength)
      rw [epochsAhead_of_tracedBy htraced, Nat.zero_add, Nat.zero_div, Nat.sub_zero, List.length_append,
        List.length_singleton]
      exact (Nat.mod_le _ _).trans (by omega)
    have hideal : idealPush c.capacity (vs.drop (vs.length - c.capacity)) v =
        (vs ++ [v]).drop (vs.length + 1 - c.capacity) := by
      rw [idealPush_eq_drop v (by rw [List.length_drop]; omega), List.drop_drop, List.length_drop,
        List.drop_append_of_le_length (by omega)]
      congr 2
      omega
    rw [pushAll_append] at hahead ⊢
    rw [← hideal]
    exact .push (ih (fun w hw => hv w (by simp [hw])) (by omega)) (hv v (by simp)) hahead

/-- Settles O59: inside the envelope DRAIN returns the ideal queue. -/
theorem lastCapacityValuesSurvive : Obligations.LastCapacityValuesSurvive := by
  intro c b vs hp hc hst hv hlength
  have hcap := capacity_pos_of_legal hc
  obtain ⟨b', hpop, -⟩ := inEnvelope_drain hp hcap (inEnvelope_pushAll hcap hst hv hlength)
  exact ⟨zeroCursors b', drainSlots_ok.2 ⟨b', hpop, rfl⟩⟩

end Sys2Proof.Proofs
end

section

namespace Sys2Proof.Proofs

open Sys2Proof Sys2Proof.Machine

/-! The canonical form of the storage (`spec/10_state.md` R33). -/

/-- A slot below every listed one holds no value. -/
theorem read_of_lt_head {m : Memory} {i : Nat} (hwf : m.wf = true) (h : ∀ cell ∈ m.head?, i < cell.1) :
    m.read i = none := by
  induction m with
  | nil => rfl
  | cons cell rest ih =>
    obtain ⟨j, w⟩ := cell
    obtain ⟨hhead, hrest⟩ := Memory.wf_cons.1 hwf
    have hij : i < j := h (j, w) rfl
    rw [Memory.read, if_neg (by omega)]
    exact ih hrest fun cell hcell => hij.trans (hhead cell hcell)

/-- A listed head is no lower than the head of a storage in canonical form that reads alike. -/
theorem head_le_of_read_eq {m m' : Memory} {j k : Nat} {w u : Slot} (hwf : Memory.wf ((j, w) :: m) = true)
    (h : ∀ i, Memory.read ((j, w) :: m) i = Memory.read ((k, u) :: m') i) : j ≤ k := by
  by_contra hlt
  have hnone := read_of_lt_head (i := k) hwf (by simpa using hlt)
  rw [h k, Memory.read, if_pos rfl] at hnone
  cases hnone

theorem memory_ext {m m' : Memory} (hwf : m.wf = true) (hwf' : m'.wf = true) (h : ∀ i, m.read i = m'.read i) : m = m' := by
  induction m generalizing m' with
  | nil =>
    cases m' with
    | nil => rfl
    | cons cell' rest' => simpa [Memory.read] using h cell'.1
  | cons cell rest ih =>
    cases m' with
    | nil => simpa [Memory.read] using h cell.1
    | cons cell' rest' =>
      obtain ⟨j, w⟩ := cell
      obtain ⟨k, u⟩ := cell'
      obtain rfl : j = k :=
        Nat.le_antisymm (head_le_of_read_eq hwf h) (head_le_of_read_eq hwf' fun i => (h i).symm)
      obtain rfl : w = u := by simpa [Memory.read] using h j
      obtain ⟨hhead, hrest⟩ := Memory.wf_cons.1 hwf
      obtain ⟨hhead', hrest'⟩ := Memory.wf_cons.1 hwf'
      rw [ih hrest hrest' fun i => ?_]
      by_cases hi : j = i
      · subst hi
        rw [read_of_lt_head hrest hhead, read_of_lt_head hrest' hhead']
      · simpa [Memory.read, hi] using h i

/-- Settles O45: a write by `Memory.wf_write`, and equality by the two lists' heads, which the reads determine. -/
theorem storageFormIsCanonical : Obligations.StorageFormIsCanonical :=
  ⟨fun _ i v h => Memory.wf_write i v h, fun _ _ => memory_ext⟩

end Sys2Proof.Proofs
end

section

namespace Sys2Proof.Proofs

open Sys2Proof Sys2Proof.Machine

/-! What repeated PUSH does to the storage and the registers (`spec/44_bulk.md` section WRITE, `spec/20_memory.md` section 8). -/

theorem pushAll_readPointer (c : Config) (vs : List Slot) (b : Buffer) :
    (pushAll c vs b).readIndex = b.readIndex ∧ (pushAll c vs b).readEpoch = b.readEpoch := by
  induction vs generalizing b with
  | nil => exact ⟨rfl, rfl⟩
  | cons v vs ih => exact ih (pushSlot c v b)

/-- With the write index out of range nothing is stored, so no premise on it is needed. -/
theorem pushSlot_read_of_mod_ne {c : Config} {b : Buffer} {i : Nat} (v : Slot) (h : b.writeIndex % c.capacity ≠ i) :
    (pushSlot c v b).storage.read i = b.storage.read i := by
  by_cases hlt : b.writeIndex < c.capacity
  · rw [Nat.mod_eq_of_lt hlt] at h
    exact pushSlot_read_other v h.symm
  · rw [pushSlot_storage, memWrite, if_neg hlt]

theorem pushAll_read_other {c : Config} {vs : List Slot} {b : Buffer} {i : Nat}
    (h : ∀ k, k < vs.length → (b.writeIndex + k) % c.capacity ≠ i) :
    (pushAll c vs b).storage.read i = b.storage.read i := by
  induction vs generalizing b with
  | nil => rfl
  | cons v vs ih =>
    have hrest : ∀ k, k < vs.length → ((pushSlot c v b).writeIndex + k) % c.capacity ≠ i := by
      intro k hk
      rw [pushSlot_writeIndex, nextIndex, Nat.mod_add_mod, Nat.add_assoc]
      exact h (1 + k) (by rw [List.length_cons]; omega)
    rw [pushAll, ih hrest, pushSlot_read_of_mod_ne v (h 0 (by simp))]

/-- Of the last `CAPACITY` values none is overwritten: the pushes after each are too few to come round to its slot. -/
theorem pushAll_read_last {c : Config} {vs : List Slot} {b : Buffer} {k : Nat} {v : Slot} (h : registersLegal c b)
    (hk : vs[k]? = some v) (hlast : vs.length ≤ k + c.capacity) :
    (pushAll c vs b).storage.read ((b.writeIndex + k) % c.capacity) = some v := by
  induction vs generalizing b k with
  | nil => cases hk
  | cons w vs ih =>
    rw [List.length_cons] at hlast
    rw [pushAll]
    cases k with
    | zero =>
      cases hk
      rw [Nat.add_zero, pushAll_read_other, Nat.mod_eq_of_lt h.1]
      · exact pushSlot_read_same v h.1
      · intro k hk
        rw [pushSlot_writeIndex, nextIndex, Nat.mod_add_mod, Nat.add_assoc]
        exact (mod_ne_add_mod _ (by omega) (by omega)).symm
    | succ k =>
      have hread := ih (registersLegal_push (v := w) h) (k := k) hk (by omega)
      rwa [pushSlot_writeIndex, nextIndex, Nat.mod_add_mod, Nat.add_assoc, Nat.add_comm 1 k] at hread

/-- Legal write registers are the digits of the write position. -/
theorem registers_of_writePosition {c : Config} {b : Buffer} {n : Nat} (h : registersLegal c b)
    (hn : writePosition c b = n % positions c) :
    b.writeIndex = n % c.capacity ∧ b.writeEpoch = n / c.capacity % epochs c := by
  have hcap : 0 < c.capacity := Nat.zero_lt_of_lt h.1
  rw [writePosition, Nat.mul_comm, positions] at hn
  constructor
  · calc b.writeIndex = (c.capacity * b.writeEpoch + b.writeIndex) % c.capacity := by
          rw [Nat.mul_add_mod, Nat.mod_eq_of_lt h.1]
      _ = n % c.capacity := by rw [hn, Nat.mod_mul_left_mod]
  · calc b.writeEpoch = (c.capacity * b.writeEpoch + b.writeIndex) / c.capacity := by
          rw [Nat.mul_add_div hcap, Nat.div_eq_of_lt h.1, Nat.add_zero]
      _ = n / c.capacity % epochs c := by rw [hn, Nat.mod_mul_left_div_self]

theorem pushAll_writePointer {c : Config} {b : Buffer} (h : registersLegal c b) (vs : List Slot) :
    (pushAll c vs b).writeIndex = (b.writeIndex + vs.length) % c.capacity ∧
    (pushAll c vs b).writeEpoch = (b.writeEpoch + (b.writeIndex + vs.length) / c.capacity) % epochs c := by
  have hcap : 0 < c.capacity := Nat.zero_lt_of_lt h.1
  obtain ⟨h', -, -, hposition⟩ := pushAll_cursors (vs := vs) h
  obtain ⟨hwi, hwe⟩ := registers_of_writePosition h' hposition
  rw [writePosition, Nat.mul_comm, Nat.add_assoc] at hwi hwe
  exact ⟨by rw [hwi, Nat.mul_add_mod], by rw [hwe, Nat.mul_add_div hcap]⟩

/-- Settles O36: WRITE is repeated PUSH, whose pointer and storage have their lemmas. -/
theorem writeAdvancesByLength : Obligations.WriteAdvancesByLength := by
  intro s b src hb h hw
  obtain ⟨hwi, hwe⟩ := pushAll_writePointer h (src.map byteSlot)
  obtain ⟨hri, hre⟩ := pushAll_readPointer s.config (src.map byteSlot) b
  rw [List.length_map] at hwi hwe
  refine ⟨_, exec_write_of_live hb hw, hwi, hwe, hri, hre, fun k x hk hlast => ?_, fun i hi => ?_⟩
  · exact pushAll_read_last h (by rw [List.getElem?_map, hk, Option.map_some]) (by rwa [List.length_map])
  · exact pushAll_read_other (by rwa [List.length_map])

/-! Frames. -/

/-- Settles O39: PUSH and WRITE end in the buffers of `pushSlot` and `pushAll`. -/
theorem storingCommandsFrame : Obligations.StoringCommandsFrame := by
  intro s t b b' hb hb'
  refine ⟨fun v h => ?_, fun src h => ?_⟩
  · obtain ⟨-, b0, hb0, rfl⟩ := exec_push_next h
    cases hb.symm.trans hb0
    cases hb'
    exact ⟨rfl, rfl, rfl, rfl, fun a ha => pushSlot_read_other v ha⟩
  · obtain ⟨-, -, b0, hb0, rfl⟩ := exec_write_next h
    cases hb.symm.trans hb0
    cases hb'
    obtain ⟨hri, hre⟩ := pushAll_readPointer s.config (src.map byteSlot) b
    exact ⟨rfl, rfl, hri, hre, fun a ha => pushAll_read_other (by rwa [List.length_map])⟩

/-- Settles O40: a row of pops leaves the write pointer and the storage (`Pops.frame`), and `zeroCursors` the storage. -/
theorem poppingCommandsFrame : Obligations.PoppingCommandsFrame := by
  intro s t b b' hb hb'
  refine ⟨?_, ?_⟩
  · rintro (h | ⟨n, h⟩)
    · obtain ⟨b0, b1, v, hb0, hpop, rfl⟩ := exec_next_next h
      cases hb.symm.trans hb0
      cases hb'
      exact ⟨rfl, rfl, popSlot_frame hpop⟩
    · obtain ⟨-, -, b0, b1, vs, hb0, hpop, rfl⟩ := exec_read_next h
      cases hb.symm.trans hb0
      cases hb'
      exact ⟨rfl, rfl, (popUpTo_ok hpop).1.frame⟩
  · rintro (h | h)
    · obtain ⟨b0, hb0, rfl⟩ := exec_clear_next h
      cases hb.symm.trans hb0
      cases hb'
      exact ⟨rfl, rfl, rfl, rfl, rfl, rfl, rfl⟩
    · obtain ⟨b0, b1, vs, hb0, hpop, rfl⟩ := exec_drain_next h
      cases hb.symm.trans hb0
      cases hb'
      obtain ⟨-, -, hstorage⟩ := (popUpTo_ok hpop).1.frame
      exact ⟨rfl, rfl, hstorage, rfl, rfl, rfl, rfl⟩

/-- Settles O41: the other four operations are those of O40. -/
theorem onlyPushesChangeStorage : Obligations.OnlyPushesChangeStorage := by
  intro i s t b b' hb h hb' hchanged
  obtain ⟨hpopping, hclearing⟩ := poppingCommandsFrame s t b b' hb hb'
  cases i with
  | construct => exact .inl rfl
  | push v => exact .inr (.inl ⟨v, rfl⟩)
  | next =>
    obtain ⟨-, -, -, -, hstorage⟩ := hpopping (.inl h)
    exact absurd hstorage hchanged
  | clear =>
    obtain ⟨-, -, hstorage, -⟩ := hclearing (.inl h)
    exact absurd hstorage hchanged
  | drain =>
    obtain ⟨-, -, hstorage, -⟩ := hclearing (.inr h)
    exact absurd hstorage hchanged
  | read n =>
    obtain ⟨-, -, -, -, hstorage⟩ := hpopping (.inr ⟨n, h⟩)
    exact absurd hstorage hchanged
  | write src => exact .inr (.inr ⟨src, rfl⟩)

/-- The buffer with another read pointer. -/
def withReadPointer (b : Buffer) (ri re : Nat) : Buffer := { b with readIndex := ri, readEpoch := re }

theorem pushSlot_withReadPointer (c : Config) (v : Slot) (b : Buffer) (ri re : Nat) :
    pushSlot c v (withReadPointer b ri re) = withReadPointer (pushSlot c v b) ri re := rfl

theorem pushAll_withReadPointer (c : Config) (vs : List Slot) (b : Buffer) (ri re : Nat) :
    pushAll c vs (withReadPointer b ri re) = withReadPointer (pushAll c vs b) ri re := by
  induction vs generalizing b with
  | nil => rfl
  | cons v vs ih => rw [pushAll, pushSlot_withReadPointer, ih, pushAll]

/-- Settles O42: repeated PUSH commutes with a change of the read pointer, and a PUSH is one of its turns. -/
theorem writeSideIgnoresReadSide : Obligations.WriteSideIgnoresReadSide := by
  rintro i s t b b' ri re (⟨v, rfl⟩ | ⟨src, rfl⟩) hb h hb'
  · obtain ⟨hv, b0, hb0, rfl⟩ := exec_push_next h
    cases hb.symm.trans hb0
    cases hb'
    exact exec_push_of_live (s := s.withBlock (.live (withReadPointer b ri re))) rfl hv
  · obtain ⟨h8, hlen, b0, hb0, rfl⟩ := exec_write_next h
    cases hb.symm.trans hb0
    cases hb'
    have hwrite := exec_write_of_live (s := s.withBlock (.live (withReadPointer b ri re))) (src := src) rfl
      (Bool.and_eq_true_iff.2 ⟨h8, hlen⟩)
    rwa [pushAll_withReadPointer] at hwrite

end Sys2Proof.Proofs
end

section

namespace Sys2Proof.Proofs

open Sys2Proof Sys2Proof.Machine

/-! CLEAR, DRAIN and READ where there is nothing to pop, and the bound on DRAIN (`spec/43_clear_drain.md`, `spec/44_bulk.md`). -/

/-- Settles O30: CLEAR leaves an empty buffer with all cursors 0. -/
theorem clearForgetsEverything : Obligations.ClearForgetsEverything := by
  intro s t h
  obtain ⟨b, hb, rfl⟩ := exec_clear_next h
  refine ⟨⟨_, exec_next_of_pop rfl (popSlot_of_empty (isEmpty_zeroCursors b)), rfl, rfl⟩,
    ⟨_, exec_clear_of_live rfl, rfl⟩, fun hc v u b' hpush hb' => ?_⟩
  obtain ⟨-, b0, hb0, rfl⟩ := exec_push_next hpush
  cases hb0
  cases hb'
  exact pushSlot_read_same (b := zeroCursors b) v (capacity_pos_of_legal hc)

/-- Settles O32: each element of DRAIN's row of pops takes at least one off `pending`. -/
theorem drainReturnsAtMostPending : Obligations.DrainReturnsAtMostPending := by
  intro s t b vs hs hb h hresult
  obtain ⟨-, -, hregisters, -⟩ := hs.live hb
  obtain ⟨b0, b1, ws, hb0, hpop, rfl⟩ := exec_drain_next h
  cases hb.symm.trans hb0
  cases hresult
  have hle := pending_add_length_le_of_pops (popUpTo_ok hpop).1 hregisters
  have hlt : pending s.config b < 2 ^ s.config.epochBits * s.config.capacity := pending_lt hregisters
  omega

theorem popUpTo_of_empty {c : Config} {b : Buffer} (n : Nat) (he : isEmpty b = true) : popUpTo c n b = .ok (b, []) := by
  cases n with
  | zero => rfl
  | succ n => rw [popUpTo, popSlot_of_empty he]

/-- Settles O34: without room there is no turn, and on an empty buffer the first turn ends the loop. -/
theorem readOfNothingChangesNothing : Obligations.ReadOfNothingChangesNothing := by
  intro s b n hb hw hnothing
  have hpop : popUpTo s.config n b = .ok (b, []) := by
    rcases hnothing with rfl | he
    · rfl
    · exact popUpTo_of_empty n he
  exact exec_read_of_popUpTo hb hw hpop

/-- Settles O20: each operation's inversion lemma names the result it leaves, and the ports show that. -/
theorem responsesMatchCommands : Obligations.ResponsesMatchCommands := by
  intro i s t h
  cases i with
  | construct =>
    obtain ⟨-, -, rfl⟩ := exec_construct_next h
    exact ⟨rfl, rfl⟩
  | push v =>
    obtain ⟨-, b, -, rfl⟩ := exec_push_next h
    exact ⟨rfl, rfl⟩
  | next =>
    obtain ⟨b, b', v, -, -, rfl⟩ := exec_next_next h
    exact ⟨v, rfl, rfl, rfl, rfl⟩
  | clear =>
    obtain ⟨b, -, rfl⟩ := exec_clear_next h
    exact ⟨rfl, rfl⟩
  | drain =>
    obtain ⟨b, b', vs, -, -, rfl⟩ := exec_drain_next h
    exact ⟨vs, rfl, rfl, rfl⟩
  | read n =>
    obtain ⟨-, -, b, b', vs, -, hpop, rfl⟩ := exec_read_next h
    have hle : vs.length ≤ n := by
      rcases (popUpTo_ok hpop).2 with hall | ⟨hfew, -⟩ <;> omega
    rw [← List.length_map (f := slotByte)] at hle ⊢
    exact ⟨vs.map slotByte, rfl, hle, rfl, rfl, rfl⟩
  | write src =>
    obtain ⟨-, -, b, -, rfl⟩ := exec_write_next h
    exact ⟨rfl, rfl, rfl⟩

end Sys2Proof.Proofs
end

section

namespace Sys2Proof.Proofs

open Sys2Proof Sys2Proof.Machine

/-! CONSTRUCT, its failure and DESTROY (`spec/40_construct.md`, `spec/60_exceptions.md`). -/

theorem legalCapacity_iff {c : Config} : legalCapacity c = true ↔ 1 ≤ c.capacity ∧ c.capacity ≤ c.maxCapacity := by
  simp [legalCapacity]

theorem exec_construct_of_illegal {s : State} (hp : legalParameters s.config = true)
    (hc : legalCapacity s.config = false) :
    exec .construct s = .fault (.constructionFailure { code := 1, capacity := s.config.capacity }) := by
  rw [exec, execConstruct, if_neg (by simp [hp]), if_neg (by simp [hc]), raiseConstructionFailure,
    constructionFailureCode]

/-- Settles O2: a legal capacity gives the fresh buffer of O1, another the fault. -/
theorem constructBuildsOrFails : Obligations.ConstructBuildsOrFails := by
  intro s hp
  refine ⟨legalCapacity_iff, fun hc => ?_, exec_construct_of_illegal hp⟩
  exact ⟨_, Buffer.fresh, exec_construct_of_legal hp hc, rfl, rfl, rfl, rfl, rfl, rfl, fresh_storage_read,
    isEmpty_fresh, isFull_fresh _, isOverrun_fresh _, rfl, rfl, rfl⟩

theorem exec_next_status {i : Instr} {s t : State} (h : exec i s = .next t) : t.status = .live := by
  cases i with
  | construct => obtain ⟨-, -, rfl⟩ := exec_construct_next h; rfl
  | push v => obtain ⟨-, -, -, rfl⟩ := exec_push_next h; rfl
  | next => obtain ⟨-, -, -, -, -, rfl⟩ := exec_next_next h; rfl
  | clear => obtain ⟨-, -, rfl⟩ := exec_clear_next h; rfl
  | drain => obtain ⟨-, -, -, -, -, rfl⟩ := exec_drain_next h; rfl
  | read n => obtain ⟨-, -, -, -, -, -, -, rfl⟩ := exec_read_next h; rfl
  | write src => obtain ⟨-, -, -, -, rfl⟩ := exec_write_next h; rfl

/-- Settles O3: CONSTRUCT has the fault alone (`exec_constructionFailure`), and the step that asserts `rst` settles it. -/
theorem constructionFailureTaken : Obligations.ConstructionFailureTaken := by
  refine ⟨fun i s f h => exec_constructionFailure h, fun i s t h => exec_next_status h,
    fun s hp hc => exec_construct_of_illegal hp hc, fun s p rest ho hrst hp hc => ?_⟩
  have hfault := exec_construct_of_illegal (s := s.withOwner rest) hp hc
  have hstep := resetWinsOverCommand s p rest ho hrst
  rw [hfault, settle_constructionFailure] at hstep
  exact ⟨_, hstep, takeConstructionFailure_status .., takeConstructionFailure_block .., rfl, rfl, rfl,
    outputs_cmdReady_of_not_live (by simp)⟩

theorem block_of_failed {s : State} (hs : s.Inv) (hfailed : s.status = .failed) :
    legalCapacity s.config = false ∧ s.block = .failed { code := 1, capacity := s.config.capacity } := by
  unfold State.status at hfailed
  unfold State.Inv at hs
  cases hb : s.block with
  | absent => simp [hb] at hfailed
  | live b => simp [hb] at hfailed
  | failed f =>
    rw [hb] at hs
    obtain ⟨hc, rfl⟩ := hs
    exact ⟨hc, rfl⟩

/-- Settles O7: on a `Failed` instance CONSTRUCT alone is not refused, and its capacity is still not legal, so it fails again
with the same record. -/
theorem failedInstanceStaysFailed : Obligations.FailedInstanceStaysFailed := by
  intro s t hs hfailed h
  have hlive : s.status ≠ .live := by simp [hfailed]
  obtain ⟨hc, hblock⟩ := block_of_failed hs hfailed
  rcases step_next h with ⟨-, rfl⟩ | ⟨rest, -, rfl⟩ | ⟨p, rest, -, -, rfl⟩ | ⟨p, rest, i, -, -, he⟩ |
    ⟨p, rest, i, f, -, -, he, rfl⟩
  · exact ⟨hfailed, rfl⟩
  · rw [destroy_of_not_live (s := s.withOwner rest) hlive]
    exact ⟨hfailed, rfl⟩
  · exact ⟨hfailed, rfl⟩
  · by_cases hi : i = .construct
    · subst hi
      obtain ⟨-, hlegal, -⟩ := exec_construct_next he
      rw [State.withOwner_config, hc] at hlegal
      cases hlegal
    · obtain ⟨r, hr⟩ := exec_refused_of_not_live (s := s.withOwner rest) hlive hi
      rw [he] at hr
      cases hr
  · obtain ⟨-, -, rfl⟩ := exec_constructionFailure he
    exact ⟨takeConstructionFailure_status .., hblock.symm⟩

/-- Settles O8: DESTROY on a `Live` instance leaves it `Absent`, where a further one finds nothing. -/
theorem destroyEndsTheInstance : Obligations.DestroyEndsTheInstance := by
  intro s b rest hb ho
  have hstep : step s = .next ((s.withOwner rest).restart .absent) := by
    simp only [step, ho, perform, destroy_of_live (s := s.withOwner rest) hb]
  exact ⟨_, hstep, rfl, rfl, rfl, rfl, rfl, rfl⟩

/-! Parameters and operands out of range (`spec/00_scope.md` sections 4 and 5). -/

theorem legalParameters_iff {c : Config} : legalParameters c = true ↔
    1 ≤ c.maxCapacity ∧ 1 ≤ c.dataBits ∧ 2 ≤ c.epochBits ∧ ∀ k, c.countBits = some k → 1 ≤ k := by
  simp only [legalParameters, Bool.and_eq_true, decide_eq_true_eq, and_assoc]
  cases c.countBits <;> simp

/-- Settles O4: the ranges by `legalParameters_iff`, and the refusals by the checks CONSTRUCT and PUSH begin with. -/
theorem requestsOutsideParametersRefused : Obligations.RequestsOutsideParametersRefused := by
  intro s
  refine ⟨legalParameters_iff, fun hp => ?_, fun v hv => ?_⟩
  · rw [exec, execConstruct, if_pos hp]
  · rw [exec, execPush, if_neg (by simpa [slotFits] using hv)]

/-- For two slots or more the model's formula is the ceiling of the logarithm. -/
theorem indexBits_eq_clog (c : Config) : indexBits c = max 1 (Nat.clog 2 c.capacity) := by
  unfold indexBits
  split
  · rw [max_eq_left]
    exact Nat.clog_le_of_le_pow (by simpa)
  · have hlog : Nat.clog 2 c.capacity = Nat.log2 (c.capacity - 1) + 1 := by
      refine Nat.le_antisymm (Nat.clog_le_of_le_pow ?_) ((Nat.lt_clog_iff_pow_lt one_lt_two).2 ?_)
      · have := Nat.lt_log2_self (n := c.capacity - 1)
        omega
      · have := Nat.log2_self_le (n := c.capacity - 1) (by omega)
        omega
    rw [hlog, max_eq_right (by omega)]

/-- Settles O5: both the sufficiency and the minimality are those of the ceiling of the logarithm. -/
theorem indexBitsHoldEveryIndex : Obligations.IndexBitsHoldEveryIndex := by
  intro c _
  have hbits := indexBits_eq_clog c
  have hholds : c.capacity ≤ 2 ^ indexBits c := by
    rw [hbits, ← Nat.clog_le_iff_le_pow one_lt_two]
    exact le_max_right _ _
  refine ⟨hbits, fun b h => ⟨h.1.trans_le hholds, h.2.1.trans_le hholds⟩, fun n h1 hn => ?_⟩
  rw [hbits]
  exact max_le h1 (Nat.clog_le_of_le_pow hn)

theorem dataBitsIs8_eq_false {c : Config} (h : c.dataBits ≠ 8) : dataBitsIs8 c = false := by
  simpa [dataBitsIs8] using h

theorem decodeLength_of_not_eight {c : Config} (h : c.dataBits ≠ 8) (p : Ports) (i : Instr) :
    decodeLength c p i = .error (.byteOperationAbsent p.cmdOp) := if_pos (dataBitsIs8_eq_false h)

/-- Settles O37: the meanings and the decoder both begin with the check of `DATA_BITS`, or turn the sample away before it. -/
theorem byteCommandsNeedEightBits : Obligations.ByteCommandsNeedEightBits := by
  intro s h
  have h8 := dataBitsIs8_eq_false h
  refine ⟨fun n => by rw [exec, execRead, if_pos h8], fun src => by rw [exec, execWrite, if_pos h8],
    fun p hrst hvalid hop => ?_⟩
  have hreject : ∃ r, decode s.config p = .error r ∧ r ≠ .noCommand := by
    rw [decode_presented _ hrst hvalid]
    rcases hop with hop | hop
    · exact ⟨.byteOperationAbsent p.cmdOp, by simp [decodeCommand, hop, decodeLength_of_not_eight h], by simp⟩
    · by_cases hlen : p.cmdLen = p.src.length
      · exact ⟨.byteOperationAbsent p.cmdOp, by simp [decodeCommand, hop, hlen, decodeLength_of_not_eight h], by simp⟩
      · exact ⟨.sourceLength p.cmdLen p.src.length, by simp [decodeCommand, hop, hlen], by simp⟩
  obtain ⟨r, hr, hne⟩ := hreject
  exact ⟨r, issue_of_reject hr hne⟩

theorem lengthFits_of_some {c : Config} {k : Nat} (h : c.countBits = some k) (n : Nat) :
    lengthFits c n = decide (n < 2 ^ k) := by
  simp only [lengthFits, h]

theorem lengthFits_of_none {c : Config} (h : c.countBits = none) (n : Nat) : lengthFits c n = true := by
  simp only [lengthFits, h]

/-- Settles O38: with `DATA_BITS` 8, READ and WRITE are as good as their length, and `lengthFits` compares that to `2^k`. -/
theorem lengthsMustFitCountBits : Obligations.LengthsMustFitCountBits := by
  intro s h
  have h8 : dataBitsIs8 s.config = true := beq_iff_eq.2 h
  refine ⟨fun k hk => ⟨fun n hn => ?_, fun src hn => ?_, fun n hn => ?_, fun src hn => ?_⟩,
    fun hnone => ⟨fun n => ?_, fun src => ?_⟩⟩
  · rw [exec, execRead, if_neg (by simp [h8]), if_pos (by simpa [lengthFits_of_some hk] using hn)]
  · rw [exec, execWrite, if_neg (by simp [h8]), if_pos (by simpa [lengthFits_of_some hk] using hn)]
  · exact Bool.and_eq_true_iff.2 ⟨h8, by simpa [lengthFits_of_some hk] using hn⟩
  · exact Bool.and_eq_true_iff.2 ⟨h8, by simpa [lengthFits_of_some hk] using hn⟩
  · exact Bool.and_eq_true_iff.2 ⟨h8, lengthFits_of_none hnone n⟩
  · exact Bool.and_eq_true_iff.2 ⟨h8, lengthFits_of_none hnone _⟩

/-! The ports (`spec/30_encoding.md` sections 1 and 2). -/

theorem statusOutput_of_live {α : Type} {s : State} {b : Buffer} (hb : s.block = .live b) (f : Buffer → α) :
    statusOutput s f = some (f b) := by
  simp only [statusOutput, hb]

/-- Settles O19: every status output is `statusOutput` of the buffer. -/
theorem outputsShowTheRegisters : Obligations.OutputsShowTheRegisters := by
  intro s b hb
  have hstatus : s.status = .live := by simp only [State.status, hb]
  exact ⟨beq_iff_eq.2 hstatus, statusOutput_of_live hb _, statusOutput_of_live hb _, statusOutput_of_live hb _,
    statusOutput_of_live hb _⟩

/-- Settles O46: nine words, on the fixed parameters of `Config.atReset`, evaluated. -/
theorem operationCodesDecode : Obligations.OperationCodesDecode := by
  unfold Obligations.OperationCodesDecode
  decide

end Sys2Proof.Proofs
end
